-- ==== Sys2Proof/Word.lean ====
section
/-!
DEFINITION. The words of the CORE: bytes of the segment bitmap, 16-bit operands, the 35-bit command
word and the 48-bit response word (00_scope.md R7, R8; 30_encoding.md R60, R64). All are unsigned (R10).
-/
namespace Sys2Proof

/-- One byte of a segment bitmap, or a mask (10_state.md R20, 41_mask.md R90). -/
abbrev Byte := BitVec 8

/-- A 16-bit operand or pad-count: `start`, `len`, a count of the triple, a segment index (00_scope.md R7). -/
abbrev Half := BitVec 16

/-- A command word `CW` (30_encoding.md R60). -/
abbrev CommandWord := BitVec 35

/-- A response word `RSP` (30_encoding.md R64). -/
abbrev ResponseWord := BitVec 48

end Sys2Proof
end

