-- ==== Sys2Proof/Config.lean ====
section
/-!
DEFINITION. The constants of the CORE (00_scope.md R7). None is left to an implementation and no value of
the spec is left open (93_implementation_defined.md lists no "any value"), so there is no opaque constant here.
-/
namespace Sys2Proof.Config

/-- `SEGMENT_BYTES`: bytes in one segment bitmap (R7, R20). -/
abbrev segmentBytes : Nat := 8192

/-- `SEGMENT_POSITIONS` = 0x10000: tracked byte-positions of one segment (R7). -/
abbrev segmentPositions : Nat := 65536

/-- Positions that one bitmap byte represents, the 8-byte group (R13). -/
abbrev groupPositions : Nat := 8

/-- Number of segment indices of the 32-bit address space: 65536 segments of 65536 positions (R7). -/
abbrev segmentCount : Nat := 65536

end Sys2Proof.Config
end

