-- ==== Sys2Proof/Machine/Flags.lean ====
section
/-!
DEFINITION. The CORE has no flag and no condition code (10_state.md R24), so there is no flag computation.
What a command tests on its way is here: the wraparound condition (42_fill.md R101, 43_query.md R121) and
the test of a byte under a mask (R122 to R124).
-/
namespace Sys2Proof.Machine

/-- `start + len > 0x10000`, strictly, over the naturals (R101, D8). -/
def wraps (start len : Nat) : Bool := decide (start + len > Config.segmentPositions)

/-- Some bit of `m` is set in the byte `b` (R122, R124). -/
def anyUnder (b m : Byte) : Bool := b &&& m != 0x00#8

end Sys2Proof.Machine
end

