-- ==== Sys2Proof/Machine/Operands.lean ====
section
/-!
DEFINITION. What the commands compute from their operands: the masks (41_mask.md R90 to R92), the pad-count
triple (40_padcount.md R80), the wraparound split (42_fill.md R101) and the byte indices (20_memory.md R45).
Arithmetic is over the naturals (00_scope.md R10).
-/
namespace Sys2Proof.Machine

/-- `start_mask(n)`: the low `n` bits, saturating at 8 (R90). -/
def startMask (n : Byte) : Byte :=
  if n.toNat ≥ 8 then 0xFF#8 else (1#8 <<< n.toNat) - 1#8

/-- `end_mask(n)`: the high `n` bits, saturating at 8 (R91). -/
def endMask (n : Byte) : Byte :=
  if n.toNat ≥ 8 then 0xFF#8 else (0xFF#8 <<< (8 - n.toNat)) &&& 0xFF#8

/-- The one single-bit helper, `0x80 >> i`, shared by every user of the bit order (R92, R95). It has no value
for an index above 7, since its operand has three bits (93_implementation_defined.md U2). -/
def bitMask (i : BitVec 3) : Byte := 0x80#8 >>> i.toNat

/-- The single-bit mask at an index that is not held in three bits. An index above 7 has no mask (R92, D9,
93_implementation_defined.md U2); the engines never ask for one (40_padcount.md R83(a)). -/
def offsetMask (off : Nat) : Option Byte := if off < 8 then some (bitMask (BitVec.ofNat 3 off)) else none

/-- The mask of position `p` in its byte: its bit offset is `p mod 8`, so every position has one (20_memory.md R41). -/
def positionMask (p : Nat) : Byte := bitMask (BitVec.ofNat 3 (p % 8))

/-- The pad-count triple (40_padcount.md R80). -/
structure PadCounts where
  leading : Nat
  full : Nat
  trailing : Nat
  deriving DecidableEq, Repr

/-- The 8-byte-group boundary at or before `start` (R80). -/
def startAlign (start : Nat) : Nat := start / 8 * 8

/-- `compute_pad_counts(start, len)` (R80). It knows nothing of the segment end (R82). -/
def padCounts (start len : Nat) : PadCounts :=
  let leading := min (8 - (start - startAlign start)) len % 8
  let full := (len - leading) / 8
  { leading := leading, full := full, trailing := len - leading - full * 8 }

/-- The positions past the segment end, when the range wraps (R101). -/
def remainder (start len : Nat) : Nat := start + len - Config.segmentPositions

/-- The working length: `len - remainder` when the range wraps, `len` otherwise (R101, R121). -/
def workingLen (start len : Nat) : Nat :=
  if wraps start len then len - remainder start len else len

/-- The byte that holds position `start` (R102). -/
def targetByte (start : Nat) : Nat := start / 8

/-- The bit offset of position `start` in its byte, counted from the most significant bit (R102). -/
def bitOffset (start : Nat) : Nat := start % 8

/-- The first full byte: one further if any leading bit was written (R104, R45). -/
def fullBase (start : Nat) (c : PadCounts) : Nat := targetByte start + if c.leading > 0 then 1 else 0

/-- The trailing byte: the byte after the last full byte, or after the leading byte when there is no full byte;
never the leading byte itself (R105, 90_conflicts.md C1). -/
def trailIndex (start : Nat) (c : PadCounts) : Nat := fullBase start c + c.full

/-- The byte indices that one pass over `(start, len)` accesses, in access order: the leading byte once for each
leading bit, the full bytes, the trailing byte (R45). -/
def touched (start len : Nat) : List Nat :=
  let c := padCounts start len
  List.replicate c.leading (targetByte start) ++ List.range' (fullBase start c) c.full ++
    if c.trailing > 0 then [trailIndex start c] else []

end Sys2Proof.Machine
end

