-- ==== Sys2Proof/Syntax.lean ====
section
/-!
DEFINITION. The six commands of the CORE (00_scope.md R2, 30_encoding.md R61), the fields of a raw command
word (R60) and the ways in which a word can be reserved (R65).
-/
namespace Sys2Proof

/-- The commands, one constructor for each row of the opcode table. The operand types are exactly the operand
ranges of 30_encoding.md R62, so every term of this type is a legal command. -/
inductive Instr where
  /-- `PADCNT start, len` (40_padcount.md R80). -/
  | padcnt (start len : Half)
  /-- `SMASK n` (41_mask.md R90). -/
  | smask (n : Byte)
  /-- `EMASK n` (41_mask.md R91). -/
  | emask (n : Byte)
  /-- `BMASK i`; an index above 7 cannot be expressed (41_mask.md R92, 92_eei_decisions.md D9). -/
  | bmask (i : BitVec 3)
  /-- `FILL start, len` (42_fill.md R100). -/
  | fill (start len : Half)
  /-- `QUERY start, len` (43_query.md R120). -/
  | query (start len : Half)
  deriving DecidableEq, Repr

/-- The three fields of a command word before it is known to be a command (30_encoding.md R60). -/
structure CommandFields where
  op : BitVec 3
  a : Half
  b : Half
  deriving DecidableEq, Repr

/-- Why a command word is reserved (30_encoding.md R65). -/
inductive Reserved where
  /-- `op` is 6 or 7. -/
  | unassignedOp (op : BitVec 3)
  /-- `op` is 1, 2 or 3 and a must-be-zero bit is set. -/
  | mustBeZero (op : BitVec 3)
  deriving DecidableEq, Repr

end Sys2Proof
end

