-- ==== Sys2Proof/WellFormed.lean ====
section
/-!
DEFINITION. When the fields of a command word make a command (30_encoding.md R62, R65). `Instr` itself carries
its well-formedness in its types, so the checks stand at the level of the raw fields.
-/
namespace Sys2Proof

/-- `op` is one of the six assigned codes (R61). -/
def CommandFields.opAssigned (f : CommandFields) : Bool := decide (f.op.toNat ≤ 5)

/-- The mask commands `op` 1, 2 and 3 use no bit of the field `a` (R62). -/
def CommandFields.aUsedOrZero (f : CommandFields) : Bool :=
  !(f.op == 1#3 || f.op == 2#3 || f.op == 3#3) || f.a == 0#16

/-- `SMASK` and `EMASK` use `b[7:0]` alone (R62). -/
def CommandFields.countInLowByte (f : CommandFields) : Bool :=
  !(f.op == 1#3 || f.op == 2#3) || f.b.extractLsb' 8 8 == 0#8

/-- `BMASK` uses `b[2:0]` alone (R62). -/
def CommandFields.indexInLowBits (f : CommandFields) : Bool :=
  !(f.op == 3#3) || f.b.extractLsb' 3 13 == 0#13

/-- The fields are those of a valid command, that is, the word is not reserved (R65). -/
def CommandFields.wellFormed (f : CommandFields) : Bool :=
  f.opAssigned && f.aUsedOrZero && f.countInLowByte && f.indexInLowBits

end Sys2Proof
end

