-- ==== Sys2Proof/Decode.lean ====
section
/-!
DEFINITION. Decoding of a 35-bit command word, total, rejecting reserved words by name (30_encoding.md R60 to
R63, R65); the encoder written from the same rules; the match and mask table of R63.
-/
namespace Sys2Proof

/-- The fields `CW[34:32]`, `CW[31:16]`, `CW[15:0]` (R60). -/
def fieldsOf (cw : CommandWord) : CommandFields :=
  { op := cw.extractLsb' 32 3, a := cw.extractLsb' 16 16, b := cw.extractLsb' 0 16 }

/-- Decoding (R61, R62): every word is one command or reserved. -/
def decode (cw : CommandWord) : Except Reserved Instr :=
  let f := fieldsOf cw
  match f.op.toNat with
  | 0 => .ok (.padcnt f.a f.b)
  | 1 => if cw.extractLsb' 8 24 = 0#24 then .ok (.smask (cw.extractLsb' 0 8)) else .error (.mustBeZero f.op)
  | 2 => if cw.extractLsb' 8 24 = 0#24 then .ok (.emask (cw.extractLsb' 0 8)) else .error (.mustBeZero f.op)
  | 3 => if cw.extractLsb' 3 29 = 0#29 then .ok (.bmask (cw.extractLsb' 0 3)) else .error (.mustBeZero f.op)
  | 4 => .ok (.fill f.a f.b)
  | 5 => .ok (.query f.a f.b)
  | _ => .error (.unassignedOp f.op)

/-- The word that the fields make up, `op` on top (R60). -/
def wordOf (op : BitVec 3) (a b : Half) : CommandWord := op ++ a ++ b

/-- Encoding (R61, R62). -/
def encode : Instr → CommandWord
  | .padcnt start len => wordOf 0#3 start len
  | .smask n => wordOf 1#3 0#16 (n.setWidth 16)
  | .emask n => wordOf 2#3 0#16 (n.setWidth 16)
  | .bmask i => wordOf 3#3 0#16 (i.setWidth 16)
  | .fill start len => wordOf 4#3 start len
  | .query start len => wordOf 5#3 start len

/-- The name of a command's row in the opcode table (R61). -/
def mnemonicOf : Instr → String
  | .padcnt _ _ => "PADCNT"
  | .smask _ => "SMASK"
  | .emask _ => "EMASK"
  | .bmask _ => "BMASK"
  | .fill _ _ => "FILL"
  | .query _ _ => "QUERY"

/-- One row of the decode table (R63). -/
structure OpcodeRow where
  mnemonic : String
  mask : CommandWord
  pattern : CommandWord
  deriving DecidableEq, Repr

/-- The decode table, with the masks and match values that R63 prints. -/
def opcodeRows : List OpcodeRow :=
  [ ⟨"PADCNT", 0x700000000#35, 0x000000000#35⟩,
    ⟨"SMASK",  0x7FFFFFF00#35, 0x100000000#35⟩,
    ⟨"EMASK",  0x7FFFFFF00#35, 0x200000000#35⟩,
    ⟨"BMASK",  0x7FFFFFFF8#35, 0x300000000#35⟩,
    ⟨"FILL",   0x700000000#35, 0x400000000#35⟩,
    ⟨"QUERY",  0x700000000#35, 0x500000000#35⟩ ]

/-- A word selects the row whose `w & mask = match` (R63). -/
def selects (cw : CommandWord) (r : OpcodeRow) : Bool := cw &&& r.mask == r.pattern

/-- The command word that an opcode-table word of `nbits` bits stands for: bits above `nbits` are 0, and the
command port has no line above bit 34 (R60). -/
def tableWord (nbits w : Nat) : CommandWord := BitVec.ofNat 35 (w % 2 ^ nbits)

/-- What the decoder reads from a word numbered as the opcode table numbers it. -/
def decodeTableWord (nbits w : Nat) : Option Instr :=
  match decode (tableWord nbits w) with
  | .ok i => some i
  | .error _ => none

end Sys2Proof
end

