-- ==== Sys2Proof/Machine/State.lean ====
section
/-!
DEFINITION. The state of the machine (10_state.md), what the host and the environment can present to it
(00_scope.md R14, 30_encoding.md R68), what a completed command answers (30_encoding.md R64), and the reasons
for a stop (60_exceptions.md R140, R147).
-/
namespace Sys2Proof.Machine

/-- Bitmap memory: (address, byte) pairs in the canonical form `Memory.wf` of Machine/Ops.lean. Byte `idx` of
the bitmap of segment `seg` has address `seg * 8192 + idx` (DESIGN CHOICE, log entry 7); an unlisted byte is
0x00 (R30). -/
abbrev Memory := List Host.Cell

/-- What can be presented to the machine. -/
inductive HostEvent where
  /-- The environment's `RESET` (70_reset_and_hazards.md R160). -/
  | reset
  /-- The environment binds the bitmap of a segment, `BIND seg` (30_encoding.md R68). -/
  | bind (seg : Half)
  /-- The host presents a command word (30_encoding.md R60). -/
  | command (cw : CommandWord)
  deriving DecidableEq, Repr

/-- The typed result of a completed command (30_encoding.md R64). -/
inductive Response where
  /-- PADCNT: the pad-count triple. -/
  | counts (leading full trailing : Half)
  /-- SMASK, EMASK, BMASK: the mask byte. -/
  | mask (m : Byte)
  /-- FILL: no value. -/
  | done
  /-- QUERY: whether a position of the examined range is set. -/
  | hit (h : Bool)
  deriving DecidableEq, Repr

/-- Why the machine stops with a fault. There is one fault class (60_exceptions.md R141). -/
inductive Fault where
  /-- A command is presented while `FAULTED` is 1: a FILL or QUERY accessed byte `idx` outside the bound buffer
  earlier, and no later command has a step (R140, R143). Raised by `step`. Safe: the machine stops. -/
  | boundsViolation (idx : Nat)
  deriving DecidableEq, Repr

/-- Why an input has no meaning (60_exceptions.md R147). -/
inductive Refusal where
  /-- An arm of `exec` that has no meaning yet. No arm answers so. Safe. -/
  | notModelled (mnemonic : String)
  /-- The command word is reserved (R65). Raised by `step` at decode. Safe: nothing is claimed of such a run. -/
  | reservedWord (why : Reserved)
  /-- FILL or QUERY on the bitmap of a segment that `RESET` has not zeroed (R161, U4). Raised by the meanings
  of FILL and QUERY. Safe: nothing is claimed of such a run. -/
  | mapNotReset (seg : Half)
  /-- A single-bit mask is asked for at an index above 7, which the spec gives no value (41_mask.md R92, U2). Raised by
  the engines of FILL and QUERY, which never ask for one. Safe: nothing is claimed of such a run. -/
  | noBitMask (i : Nat)
  deriving DecidableEq, Repr

/-- The state. `MAP` of the spec is the part of `mem` at the segment `bound`. -/
structure State where
  /-- The bitmaps of all segments (R20, R21, D13). -/
  mem : Memory
  /-- The segment whose bitmap is bound to the CORE (R21, R68). -/
  bound : Half
  /-- The segments whose bitmap `RESET` has zeroed, without repeats: the launch premise (R161). -/
  zeroed : List Half
  /-- `FAULTED` is 1 exactly when this is `some idx`, and `idx` is the recorded index (R27, R140). -/
  faulted : Option Nat
  /-- The events still to be presented, next first (R14, R23; log entry 1). -/
  inbox : List HostEvent
  /-- The responses given, first one first (R64, R169; log entry 2). No command reads them (R22). -/
  responses : List Response
  deriving DecidableEq, Repr

/-- The machine right after `RESET` of the bound bitmap: every byte 0x00, `FAULTED` 0, waiting for the host's
first command (R30, R31, R160). The bound segment 0 is a DESIGN CHOICE (log entry 3). -/
def State.reset : State :=
  { mem := [], bound := 0#16, zeroed := [0#16], faulted := none, inbox := [], responses := [] }

end Sys2Proof.Machine
end

