-- ==== Sys2Proof/Machine/Ops.lean ====
section
/-!
DEFINITION. The named operations: bitmap memory, the byte accesses `MemRead` and `MemWrite` (00_scope.md R11), the
response, the one fault (60_exceptions.md R140, R143), the launch premise (70_reset_and_hazards.md R161), the
environment's `RESET` and `BIND`, and what the host can read (R164).
-/
namespace Sys2Proof.Machine

/-! ### Memory in canonical form -/

/-- The byte at an address; an unlisted byte is 0x00 (10_state.md R30). -/
def Memory.read : Memory → Nat → Byte
  | [], _ => 0x00#8
  | (a, v) :: rest, k => if a = k then v else Memory.read rest k

/-- The memory without the address `k`. -/
def Memory.erase (m : Memory) (k : Nat) : Memory := m.filter fun c => c.1 != k

/-- The memory with `(k, v)` put before the first higher address. -/
def Memory.insert : Memory → Nat → Byte → Memory
  | [], k, v => [(k, v)]
  | (a, w) :: rest, k, v => if k < a then (k, v) :: (a, w) :: rest else (a, w) :: Memory.insert rest k v

/-- The memory with the byte `v` at `k`. Writing 0x00, which an unlisted byte reads as, removes the entry. -/
def Memory.write (m : Memory) (k : Nat) (v : Byte) : Memory :=
  if v = 0x00#8 then Memory.erase m k else Memory.insert (Memory.erase m k) k v

/-- The memory with every byte of `[lo, hi)` 0x00. -/
def Memory.clear (m : Memory) (lo hi : Nat) : Memory := m.filter fun c => !(decide (lo ≤ c.1) && decide (c.1 < hi))

/-- The canonical form: addresses strictly rising, no listed byte 0x00. -/
abbrev Memory.wf (m : Memory) : Prop :=
  List.Pairwise (fun x y : Host.Cell => x.1 < y.1) m ∧ ∀ c ∈ m, c.2 ≠ 0x00#8

/-! ### The bitmaps -/

/-- The address of byte `idx` of the bitmap of segment `seg` (log entry 7). -/
def mapAddr (seg : Half) (idx : Nat) : Nat := seg.toNat * Config.segmentBytes + idx

/-- Byte `idx` of the bitmap of segment `seg`. -/
def State.byteOf (s : State) (seg : Half) (idx : Nat) : Byte := Memory.read s.mem (mapAddr seg idx)

/-- `MAP[idx]`: byte `idx` of the bound bitmap (R11, R20). -/
def State.mapByte (s : State) (idx : Nat) : Byte := s.byteOf s.bound idx

/-- The bit of position `p` of segment `seg`: bit offset `p mod 8` of byte `p / 8` (20_memory.md R41). -/
def State.bitOf (s : State) (seg : Half) (p : Nat) : Bool := anyUnder (s.byteOf seg (p / 8)) (positionMask p)

/-- `Bit(MAP, p)` (R11, R41). -/
def State.bit (s : State) (p : Nat) : Bool := s.bitOf s.bound p

/-! ### Updates of the state -/

/-- The state with the bitmaps `m`. -/
def State.withMem (s : State) (m : Memory) : State := { s with mem := m }

/-- `MAP[idx] <- v`: the byte `v` stored in the bound bitmap (R11). -/
def State.setByte (s : State) (idx : Nat) (v : Byte) : State :=
  s.withMem (Memory.write s.mem (mapAddr s.bound idx) v)

/-- The state with the events `evs` still to be presented. -/
def State.withInbox (s : State) (evs : List HostEvent) : State := { s with inbox := evs }

/-- `respond(v)`: ends the command and gives the host the response (R11, R64). -/
def State.respond (s : State) (r : Response) : State := { s with responses := s.responses ++ [r] }

/-- `raise BoundsViolation(idx)`: `FAULTED` becomes 1 with the index recorded, no response is given, the writes made
before the bad access stay (R27, R140, R143). The stop follows in `step`: no later command has a step. -/
def State.raiseBounds (s : State) (idx : Nat) : State := { s with faulted := some idx }

/-- The bit `FAULTED` (R27). -/
def State.FAULTED (s : State) : Bool := s.faulted.isSome

/-- The segments with `seg` among them, none listed twice. -/
def addSegment (zs : List Half) (seg : Half) : List Half := if seg ∈ zs then zs else seg :: zs

/-- `RESET`: every byte of the bound bitmap becomes 0x00 and `FAULTED` becomes 0; there is nothing else to reset
(R160). The bound segment now meets the launch premise (R161). -/
def State.resetEvent (s : State) : State :=
  { s with
    mem := Memory.clear s.mem (mapAddr s.bound 0) (mapAddr s.bound Config.segmentBytes)
    zeroed := addSegment s.zeroed s.bound
    faulted := none }

/-- `BIND seg`: the bitmap of `seg` is bound; every bitmap keeps its contents (R68, D13). -/
def State.bindEvent (s : State) (seg : Half) : State := { s with bound := seg }

/-- The launch premise of a command that touches `MAP`: `RESET` has zeroed the bound bitmap (R161). -/
def State.mapReady (s : State) : Bool := decide (s.bound ∈ s.zeroed)

/-- What the host reads between commands: any byte of the bound bitmap (R164). There is nothing past its end, and a bitmap
that `RESET` has not zeroed has no content to speak of (R161). -/
def State.hostRead (s : State) (idx : Nat) : Option Byte :=
  if idx < Config.segmentBytes ∧ s.mapReady = true then some (s.mapByte idx) else none

/-! ### Byte accesses

`cap` is the length of the bound buffer. The hardware's is 8192 (R20); the accesses take it as an argument because
the source defines the fault for a shorter one (R112, R129, R142). -/

/-- Why an engine stops before its end. Neither can happen on the 8192-byte `MAP`. -/
inductive Stop where
  /-- An access outside the buffer: the index, and the state as the command has left it so far (R140, U7). -/
  | outside (idx : Nat) (state : State)
  /-- A single-bit mask is asked for at an index above 7 (U2). -/
  | noBitMask (i : Nat)
  deriving DecidableEq, Repr

/-- The end of a command that an engine has stopped: the fault, or the refusal (R140, U2). -/
def stopOutcome : Stop → Host.Outcome State Fault Refusal
  | .outside idx s => .next (s.raiseBounds idx)
  | .noBitMask i => .refused (.noBitMask i)

/-- `MemRead(idx, 1)` (R11). -/
def memRead (cap idx : Nat) (s : State) : Except Stop Byte :=
  if idx < cap then .ok (s.mapByte idx) else .error (.outside idx s)

/-- `MemWrite(idx, 1, v)` (R11). -/
def memWrite (cap idx : Nat) (v : Byte) (s : State) : Except Stop State :=
  if idx < cap then .ok (s.setByte idx v) else .error (.outside idx s)

/-- The OR-in access: `MemWrite(idx, 1, MemRead(idx, 1) | m)` (R44). -/
def orIn (cap idx : Nat) (m : Byte) (s : State) : Except Stop State := do
  let b ← memRead cap idx s
  memWrite cap idx (b ||| m) s

/-- The single-bit mask at bit offset `off`, for the engines (41_mask.md R92, R95). -/
def maskAt (off : Nat) : Except Stop Byte := (offsetMask off).elim (.error (.noBitMask off)) .ok

/-! ### Responses on the wire -/

/-- `RSP` of a result (R64). -/
def Response.word : Response → ResponseWord
  | .counts leading full trailing => leading ++ full ++ trailing
  | .mask m => m.setWidth 48
  | .done => 0#48
  | .hit h => (BitVec.ofBool h).setWidth 48

/-- The response words of the run so far, in command order (R169). -/
def State.responseWords (s : State) : List ResponseWord := s.responses.map Response.word

end Sys2Proof.Machine
end

