-- ==== Sys2Proof/Machine/Fill.lean ====
section
/-!
DEFINITION. The Range-Fill Engine: `FILL` (42_fill.md), step by step as R100 gives it.
-/
namespace Sys2Proof.Machine

/-- Step 4: one OR-in of a single-bit mask for each of `k` leading bits, from bit offset `off` on (R103). -/
def fillLeading (cap target : Nat) : Nat → Nat → State → Except Stop State
  | _, 0, s => .ok s
  | off, k + 1, s => do
    let m ← maskAt off
    let s' ← orIn cap target m s
    fillLeading cap target (off + 1) k s'

/-- Step 5: `k` full bytes stored as 0xFF, at ascending indices from `idx` (R104). -/
def fillFull (cap : Nat) : Nat → Nat → State → Except Stop State
  | _, 0, s => .ok s
  | idx, k + 1, s => do
    let s' ← memWrite cap idx 0xFF#8 s
    fillFull cap (idx + 1) k s'

/-- Step 6: the trailing bits, if any, OR-ed into the byte after the last full byte (R105). -/
def fillTrailing (cap idx trailing : Nat) (s : State) : Except Stop State :=
  if trailing > 0 then orIn cap idx (endMask (BitVec.ofNat 8 trailing)) s else .ok s

/-- `FILL1(start, len)`: one pass, no wraparound (R100, R102). -/
def fillPass (cap start len : Nat) (s : State) : Except Stop State := do
  let c := padCounts start len
  let s1 ← fillLeading cap (targetByte start) (bitOffset start) c.leading s
  let s2 ← fillFull cap (fullBase start c) c.full s1
  fillTrailing cap (trailIndex start c) c.trailing s2

/-- `FILL` over a buffer of `cap` bytes: a range past position 65535 continues at position 0 of the same segment,
in one second pass (R101). -/
def fillRange (cap start len : Nat) (s : State) : Except Stop State :=
  if wraps start len then do
    let s' ← fillPass cap start (workingLen start len) s
    fillPass cap 0 (remainder start len) s'
  else
    fillPass cap start len s

/-- The end of a FILL: the empty response, or the fault (R64, R140). -/
def fillOutcome : Except Stop State → Host.Outcome State Fault Refusal
  | .ok s' => .next (s'.respond .done)
  | .error stop => stopOutcome stop

/-- `FILL start, len` on the 8192-byte `MAP` (R100); refused on a bitmap that `RESET` has not zeroed (R161). -/
def execFill (start len : Half) (s : State) : Host.Outcome State Fault Refusal :=
  if s.mapReady then fillOutcome (fillRange Config.segmentBytes start.toNat len.toNat s)
  else .refused (.mapNotReset s.bound)

end Sys2Proof.Machine
end

