-- ==== Sys2Proof/Machine/Mask.lean ====
section
/-!
DEFINITION. The Bit-Mask Generator: `SMASK`, `EMASK`, `BMASK` (41_mask.md).
-/
namespace Sys2Proof.Machine

/-- `SMASK n` (R90). -/
def execSmask (n : Byte) (s : State) : Host.Outcome State Fault Refusal :=
  .next (s.respond (.mask (startMask n)))

/-- `EMASK n` (R91). -/
def execEmask (n : Byte) (s : State) : Host.Outcome State Fault Refusal :=
  .next (s.respond (.mask (endMask n)))

/-- `BMASK i` (R92). -/
def execBmask (i : BitVec 3) (s : State) : Host.Outcome State Fault Refusal :=
  .next (s.respond (.mask (bitMask i)))

end Sys2Proof.Machine
end

