-- ==== Sys2Proof/Machine/PadCount.lean ====
section
/-!
DEFINITION. The Pad-Count Calculator: `PADCNT` (40_padcount.md).
-/
namespace Sys2Proof.Machine

/-- `PADCNT start, len` (R80): responds with the triple, touches no state of the bitmap. -/
def execPadcnt (start len : Half) (s : State) : Host.Outcome State Fault Refusal :=
  let c := padCounts start.toNat len.toNat
  .next (s.respond (.counts (BitVec.ofNat 16 c.leading) (BitVec.ofNat 16 c.full) (BitVec.ofNat 16 c.trailing)))

end Sys2Proof.Machine
end

