-- ==== Sys2Proof/Machine/Query.lean ====
section
/-!
DEFINITION. The Range-Query Engine: `QUERY` (43_query.md), in the scan order and with the early exit of R120
and R127. It reads and never writes.
-/
namespace Sys2Proof.Machine

/-- Is one of `k` leading bits set, from bit offset `off` on (R122). -/
def queryLeading (cap target : Nat) (s : State) : Nat → Nat → Except Stop Bool
  | _, 0 => .ok false
  | off, k + 1 => do
    let m ← maskAt off
    let b ← memRead cap target s
    if anyUnder b m then .ok true else queryLeading cap target s (off + 1) k

/-- Is one of `k` full bytes nonzero, from index `idx` on (R123). -/
def queryFull (cap : Nat) (s : State) : Nat → Nat → Except Stop Bool
  | _, 0 => .ok false
  | idx, k + 1 => do
    let b ← memRead cap idx s
    if b != 0x00#8 then .ok true else queryFull cap s (idx + 1) k

/-- Is a trailing bit set; the byte is read only if there are trailing bits (R124). -/
def queryTrailing (cap idx trailing : Nat) (s : State) : Except Stop Bool :=
  if trailing > 0 then do
    let b ← memRead cap idx s
    .ok (anyUnder b (endMask (BitVec.ofNat 8 trailing)))
  else
    .ok false

/-- The scan of one range that does not pass the segment end, over a buffer of `cap` bytes (R120). -/
def queryPass (cap start len : Nat) (s : State) : Except Stop Bool := do
  let c := padCounts start len
  if ← queryLeading cap (targetByte start) s (bitOffset start) c.leading then .ok true
  else if ← queryFull cap s (fullBase start c) c.full then .ok true
  else queryTrailing cap (trailIndex start c) c.trailing s

/-- `QUERY` over a buffer of `cap` bytes: the wrapped tail is not examined (R121). -/
def queryRange (cap start len : Nat) (s : State) : Except Stop Bool :=
  queryPass cap start (workingLen start len) s

/-- The end of a QUERY: the boolean as response, or the fault (R64, R140). -/
def queryOutcome (s : State) : Except Stop Bool → Host.Outcome State Fault Refusal
  | .ok h => .next (s.respond (.hit h))
  | .error stop => stopOutcome stop

/-- `QUERY start, len` on the 8192-byte `MAP` (R120); refused on a bitmap that `RESET` has not zeroed (R161). -/
def execQuery (start len : Half) (s : State) : Host.Outcome State Fault Refusal :=
  if s.mapReady then queryOutcome s (queryRange Config.segmentBytes start.toNat len.toNat s)
  else .refused (.mapNotReset s.bound)

end Sys2Proof.Machine
end

