-- ==== Sys2Proof/Machine/Dispatch.lean ====
section
/-!
DEFINITION. One arm for each command (30_encoding.md R61).
-/
namespace Sys2Proof.Machine

def exec (i : Instr) (s : State) : Host.Outcome State Fault Refusal :=
  match i with
  | .padcnt start len => Sys2Proof.Machine.execPadcnt start len s
  | .smask n => Sys2Proof.Machine.execSmask n s
  | .emask n => Sys2Proof.Machine.execEmask n s
  | .bmask j => Sys2Proof.Machine.execBmask j s
  | .fill start len => Sys2Proof.Machine.execFill start len s
  | .query start len => Sys2Proof.Machine.execQuery start len s

end Sys2Proof.Machine
end

