-- ==== Sys2Proof/Machine/Command.lean ====
section
/-!
DEFINITION. The step relation, with what is presented as its parameter (00_scope.md R14, 10_state.md R23): a command word
(30_encoding.md R63, R65; 60_exceptions.md R143, R145, R147) or an action of the environment (30_encoding.md R68).
-/
namespace Sys2Proof.Machine

/-- A machine that has faulted performs no command (R143); a reserved word is refused at decode, before any access
(R145, R147); a command is executed. -/
def runWord (cw : CommandWord) (s : State) : Host.Outcome State Fault Refusal :=
  match s.faulted with
  | some idx => .fault (.boundsViolation idx)
  | none =>
    match decode cw with
    | .ok i => exec i s
    | .error why => .refused (.reservedWord why)

/-- One step on the presented event `ev`: a command performed whole (00_scope.md R14), or what the environment did (R160,
R68). It neither reads nor changes the events still to come. -/
def perform (ev : HostEvent) (s : State) : Host.Outcome State Fault Refusal :=
  match ev with
  | .reset => .next s.resetEvent
  | .bind seg => .next (s.bindEvent seg)
  | .command cw => runWord cw s

/-- A run, with its stream as argument: each event performed in order, up to the first that does not complete (10_state.md
R23, 70_reset_and_hazards.md R169). -/
def performAll : List HostEvent → State → Host.Outcome State Fault Refusal
  | [], s => .next s
  | ev :: evs, s =>
    match perform ev s with
    | .next s' => performAll evs s'
    | .fault r => .fault r
    | .refused r => .refused r

/-- The step relation fed from the stream that the host's interface has the state carry (log entry 1). With nothing
presented the CORE waits, and nothing changes (R160; log entry 4). -/
def performNext (s : State) : Host.Outcome State Fault Refusal :=
  match s.inbox with
  | [] => .next s
  | ev :: rest => perform ev (s.withInbox rest)

end Sys2Proof.Machine
end

