-- ==== Sys2Proof/Machine/Step.lean ====
section
/-!
DEFINITION. One step of the machine: the next event of the stream, a command being performed whole (00_scope.md
R14, 70_reset_and_hazards.md R168). There is no program counter and no fetch from memory (10_state.md R23).
-/
namespace Sys2Proof.Machine

/-- One step (R14): `perform` of the event that is presented next. -/
def step (s : State) : Host.Outcome State Fault Refusal := performNext s

/-- The state with a word of the opcode table presented as the next command (log entry 8). -/
def State.withFetchWord (s : State) (nbits w : Nat) : State :=
  s.withInbox (.command (tableWord nbits w) :: s.inbox)

end Sys2Proof.Machine
end

