-- ==== Sys2Proof/Machine/Text.lean ====
section
/-!
DEFINITION. The textual syntax of 30_encoding.md R68: one command a line, the source's function-call spellings as
aliases, the environment's `RESET` and `BIND` lines. A line becomes an event; no step of the machine reads text.
-/
namespace Sys2Proof.Machine

/-- The pieces of a line. -/
inductive Token where
  | word (cs : List Char)
  | comma
  | opened
  | closed
  deriving DecidableEq, Repr

/-- Why a line is no line of the syntax. -/
inductive TextError where
  /-- Not of one of the forms of R68. -/
  | badForm
  /-- Not a decimal, `0x` or `0b` number. -/
  | badNumber
  /-- A number outside the operand's range (R62). -/
  | outOfRange
  deriving DecidableEq, Repr

/-- The word collected so far, if any, and then the rest. -/
def flushWord (acc : List Char) (ts : List Token) : List Token :=
  if acc.isEmpty then ts else .word acc.reverse :: ts

/-- Splits a line into pieces; `;` starts a comment (R68). `acc` is the word being read, reversed. -/
def tokenize : List Char → List Char → List Token
  | acc, [] => flushWord acc []
  | acc, c :: cs =>
    if c = ';' then flushWord acc []
    else if c = ',' then flushWord acc (.comma :: tokenize [] cs)
    else if c = '(' then flushWord acc (.opened :: tokenize [] cs)
    else if c = ')' then flushWord acc (.closed :: tokenize [] cs)
    else if c.isWhitespace then flushWord acc (tokenize [] cs)
    else tokenize (c :: acc) cs

/-- The value of a hexadecimal digit. -/
def digitValue (c : Char) : Option Nat :=
  if '0' ≤ c ∧ c ≤ '9' then some (c.toNat - '0'.toNat)
  else if 'a' ≤ c ∧ c ≤ 'f' then some (c.toNat - 'a'.toNat + 10)
  else if 'A' ≤ c ∧ c ≤ 'F' then some (c.toNat - 'A'.toNat + 10)
  else none

/-- Reads digits of a base, most significant first, onto the value read so far. -/
def digitsValue (base : Nat) : Nat → List Char → Option Nat
  | v, [] => some v
  | v, c :: cs =>
    match digitValue c with
    | some d => if d < base then digitsValue base (v * base + d) cs else none
    | none => none

/-- A number in decimal, `0x` hexadecimal or `0b` binary (R10, R68). -/
def numberValue : List Char → Except TextError Nat
  | '0' :: 'x' :: c :: cs => (digitsValue 16 0 (c :: cs)).elim (.error .badNumber) .ok
  | '0' :: 'b' :: c :: cs => (digitsValue 2 0 (c :: cs)).elim (.error .badNumber) .ok
  | c :: cs => (digitsValue 10 0 (c :: cs)).elim (.error .badNumber) .ok
  | [] => .error .badNumber

/-- A number of at most `w` bits (R62). -/
def operand (w : Nat) (cs : List Char) : Except TextError (BitVec w) := do
  let v ← numberValue cs
  if v < 2 ^ w then .ok (BitVec.ofNat w v) else .error .outOfRange

/-- The commands with two operands, under either spelling (R68). -/
def twoOperand (name : List Char) : Option (Half → Half → Instr) :=
  if name = "PADCNT".toList ∨ name = "compute_pad_counts".toList then some .padcnt
  else if name = "FILL".toList ∨ name = "fill".toList then some .fill
  else if name = "QUERY".toList ∨ name = "is_any_set".toList then some .query
  else none

/-- A command line with two operands. -/
def lineTwo (name a b : List Char) : Except TextError HostEvent :=
  match twoOperand name with
  | some mk => do
    let start ← operand 16 a
    let len ← operand 16 b
    .ok (.command (encode (mk start len)))
  | none => .error .badForm

/-- A line with one operand: a mask command or the environment's `BIND` (R68). -/
def lineOne (name a : List Char) : Except TextError HostEvent :=
  if name = "SMASK".toList ∨ name = "start_mask".toList then do
    let n ← operand 8 a
    .ok (.command (encode (.smask n)))
  else if name = "EMASK".toList ∨ name = "end_mask".toList then do
    let n ← operand 8 a
    .ok (.command (encode (.emask n)))
  else if name = "BMASK".toList then do
    let i ← operand 3 a
    .ok (.command (encode (.bmask i)))
  else if name = "BIND".toList then do
    let seg ← operand 16 a
    .ok (.bind seg)
  else .error .badForm

/-- The names of the function-call spelling (R68). -/
def sourceNames : List (List Char) :=
  ["compute_pad_counts".toList, "start_mask".toList, "end_mask".toList, "fill".toList, "is_any_set".toList]

/-- One line: `none` for a line that holds nothing but a comment. The function-call spelling is the source's, with or
without its `map` argument, which is dropped (R68). -/
def parseTokens : List Token → Except TextError (Option HostEvent)
  | [] => .ok none
  | [.word name] => if name = "RESET".toList then .ok (some .reset) else .error .badForm
  | [.word name, .word a] =>
    if name ∈ sourceNames then .error .badForm else (lineOne name a).map some
  | [.word name, .word a, .comma, .word b] =>
    if name ∈ sourceNames then .error .badForm else (lineTwo name a b).map some
  | [.word name, .opened, .word a, .closed] =>
    if name ∈ sourceNames then (lineOne name a).map some else .error .badForm
  | [.word name, .opened, .word a, .comma, .word b, .closed] =>
    if name ∈ sourceNames then (lineTwo name a b).map some else .error .badForm
  | [.word name, .opened, .word m, .comma, .word a, .comma, .word b, .closed] =>
    if m = "map".toList ∧ (name = "fill".toList ∨ name = "is_any_set".toList) then (lineTwo name a b).map some
    else .error .badForm
  | _ => .error .badForm

/-- One line of text (R68). -/
def parseLine (line : String) : Except TextError (Option HostEvent) := parseTokens (tokenize [] line.toList)

/-- A program: its lines in order, each at most one event (R68, R169). -/
def parseProgram : List String → Except TextError (List HostEvent)
  | [] => .ok []
  | line :: rest => do
    let ev ← parseLine line
    let evs ← parseProgram rest
    .ok (ev.toList ++ evs)

/-- The two hexadecimal digits of a byte. -/
def hexByte (b : Byte) : String :=
  let digits := "0123456789ABCDEF".toList
  String.ofList [digits.getD (b.toNat / 16) '0', digits.getD (b.toNat % 16) '0']

/-- How a response is noted beside a line (R68); a FILL has nothing noted. -/
def Response.text : Response → String
  | .counts l f t => "-> (" ++ toString l.toNat ++ ", " ++ toString f.toNat ++ ", " ++ toString t.toNat ++ ")"
  | .mask m => "-> 0x" ++ hexByte m
  | .done => ""
  | .hit true => "-> true"
  | .hit false => "-> false"

end Sys2Proof.Machine
end

