-- ==== Sys2Proof/Safety.lean ====
section
/-!
DEFINITION. What counts as a good state and a good step, and the sets of positions that claims speak of
(42_fill.md R107, 43_query.md R125).
-/
namespace Sys2Proof.Machine

/-- The next state, if the outcome is one. -/
def nextOf : Host.Outcome State Fault Refusal → Option State
  | .next s => some s
  | .fault _ => none
  | .refused _ => none

/-- The command reads or writes `MAP` (30_encoding.md R61). -/
def touchesMap : Instr → Bool
  | .fill _ _ => true
  | .query _ _ => true
  | .padcnt _ _ => false
  | .smask _ => false
  | .emask _ => false
  | .bmask _ => false

/-- The bitmaps other than those that `RESET` has zeroed hold nothing, and no byte lies past the last bitmap. -/
abbrev State.cellsInZeroed (s : State) : Prop :=
  ∀ c ∈ s.mem, c.1 < Config.segmentCount * Config.segmentBytes ∧
    BitVec.ofNat 16 (c.1 / Config.segmentBytes) ∈ s.zeroed

/-- The invariant of the machine: memory in canonical form, bytes only in bitmaps that exist, no segment listed twice. -/
abbrev State.Inv (s : State) : Prop := Memory.wf s.mem ∧ s.cellsInZeroed ∧ s.zeroed.Nodup

/-- `S(start, len)`: the `len` positions from `start` on, continuing at 0 after 65535 (R107). -/
def inFillSet (start len p : Nat) : Prop := ∃ k < len, (start + k) % 65536 = p

/-- Some position of the bound bitmap with the property `P` is set (R125). -/
def State.anySet (s : State) (P : Nat → Prop) : Prop := ∃ p, P p ∧ s.bit p = true

/-- The commands of a list, performed one after the other; the first that does not complete ends it (R169). -/
def execAll : List Instr → State → Host.Outcome State Fault Refusal
  | [], s => .next s
  | i :: is, s =>
    match exec i s with
    | .next s' => execAll is s'
    | .fault r => .fault r
    | .refused r => .refused r

/-- Two states with the same bitmap of every segment. -/
def sameMaps (s t : State) : Prop := ∀ seg, ∀ idx < 8192, s.byteOf seg idx = t.byteOf seg idx

/-- `t` is `s` but for the bitmaps and the responses. -/
def sameBut (s t : State) : Prop :=
  t.bound = s.bound ∧ t.zeroed = s.zeroed ∧ t.faulted = s.faulted ∧ t.inbox = s.inbox

end Sys2Proof.Machine
end

