-- ==== Sys2Proof/Certificates/Slice0/Obligations.lean ====
section
/-!
DEFINITION. What is claimed of the machine, for the provers. Every statement is about all states it names, also those
that no run reaches.
-/
open Sys2Proof Sys2Proof.Machine

/-! ### Encoding (30_encoding.md) -/

/-- Decoding an encoded command gives it back, for every command and every operand value (R60 to R62). -/
def Obligations.DecodeOfEncodeIsTheCommand : Prop := ∀ i : Instr, decode (encode i) = .ok i

/-- A word that decodes is the encoding of the command it decodes to, so every word has one meaning (R63). -/
def Obligations.EncodeOfDecodeIsTheWord : Prop := ∀ (cw : CommandWord) (i : Instr), decode cw = .ok i → encode i = cw

/-- The operands are the fields, unsigned, and the must-be-zero bits are zero (R62). -/
def Obligations.OperandsAreTheFields : Prop :=
  ∀ (cw : CommandWord) (i : Instr), decode cw = .ok i →
    match i with
    | .padcnt start len => start = cw.extractLsb' 16 16 ∧ len = cw.extractLsb' 0 16
    | .smask n => n = cw.extractLsb' 0 8 ∧ cw.extractLsb' 8 24 = 0#24
    | .emask n => n = cw.extractLsb' 0 8 ∧ cw.extractLsb' 8 24 = 0#24
    | .bmask j => j = cw.extractLsb' 0 3 ∧ cw.extractLsb' 3 29 = 0#29
    | .fill start len => start = cw.extractLsb' 16 16 ∧ len = cw.extractLsb' 0 16
    | .query start len => start = cw.extractLsb' 16 16 ∧ len = cw.extractLsb' 0 16

/-- A word decodes to a command exactly when it selects that command's row of the table, and it selects at most one row
(R63). -/
def Obligations.DecodeSelectsTheTableRow : Prop :=
  ∀ cw : CommandWord,
    (∀ i, decode cw = .ok i → ∃ r ∈ opcodeRows, r.mnemonic = mnemonicOf i ∧ selects cw r = true) ∧
    (∀ r ∈ opcodeRows, selects cw r = true → ∃ i, decode cw = .ok i ∧ mnemonicOf i = r.mnemonic) ∧
    (∀ r ∈ opcodeRows, ∀ r' ∈ opcodeRows, selects cw r = true → selects cw r' = true → r = r')

/-- The number of valid words (R63). -/
def Obligations.NumberOfValidWords : Prop :=
  Nat.card { cw : CommandWord // ∃ i, decode cw = .ok i } = 3 * 2 ^ 32 + 2 * 256 + 8

/-- The worked encodings that R63 prints. -/
def Obligations.WorkedEncodingsDecode : Prop :=
  decode 0x400000018#35 = .ok (.fill 0#16 24#16) ∧ decode 0x400070009#35 = .ok (.fill 7#16 9#16) ∧
  decode 0x51000FFFF#35 = .ok (.query 0x1000#16 0xFFFF#16) ∧ decode 0x000040008#35 = .ok (.padcnt 4#16 8#16) ∧
  decode 0x100000007#35 = .ok (.smask 7#8) ∧ decode 0x200000004#35 = .ok (.emask 4#8) ∧
  decode 0x300000007#35 = .ok (.bmask 7#3)

/-- The reserved words are those R65 lists, and a machine that is presented one refuses it. -/
def Obligations.ReservedWordsAreRefused : Prop :=
  ∀ cw : CommandWord,
    ((∃ why, decode cw = .error why) ↔
      (cw.extractLsb' 32 3 = 6#3 ∨ cw.extractLsb' 32 3 = 7#3) ∨
      ((cw.extractLsb' 32 3 = 1#3 ∨ cw.extractLsb' 32 3 = 2#3) ∧ cw.extractLsb' 8 24 ≠ 0#24) ∨
      (cw.extractLsb' 32 3 = 3#3 ∧ cw.extractLsb' 3 29 ≠ 0#29)) ∧
    ∀ why, decode cw = .error why → ∀ (s : State) (rest : List HostEvent),
      s.inbox = .command cw :: rest → s.faulted = none → step s = .refused (.reservedWord why)

/-- The response word of each kind of result, and that each command answers the kind R64 gives it. -/
def Obligations.ResponseWordHoldsTheResult : Prop :=
  (∀ l f t : Half, (Response.counts l f t).word.extractLsb' 32 16 = l ∧
    (Response.counts l f t).word.extractLsb' 16 16 = f ∧ (Response.counts l f t).word.extractLsb' 0 16 = t) ∧
  (∀ m : Byte, (Response.mask m).word.extractLsb' 0 8 = m ∧ (Response.mask m).word.extractLsb' 8 40 = 0#40) ∧
  Response.done.word = 0#48 ∧
  (∀ h : Bool, (Response.hit h).word.extractLsb' 0 1 = BitVec.ofBool h ∧
    (Response.hit h).word.extractLsb' 1 47 = 0#47) ∧
  ∀ (i : Instr) (s t : State), exec i s = .next t → ∃ r, t.responses = s.responses ++ [r] ∧
    match i with
    | .padcnt _ _ => ∃ l f u, r = .counts l f u
    | .smask _ => ∃ m, r = .mask m
    | .emask _ => ∃ m, r = .mask m
    | .bmask _ => ∃ m, r = .mask m
    | .fill _ _ => r = .done
    | .query _ _ => ∃ h, r = .hit h

/-! ### The step -/

/-- A step runs the decoded command whole, with its word taken from the stream (00_scope.md R14; that the stream stands in
the state is the model's choice, log entry 1). -/
def Obligations.StepRunsThePresentedCommand : Prop :=
  ∀ (s : State) (cw : CommandWord) (rest : List HostEvent) (i : Instr),
    s.inbox = .command cw :: rest → s.faulted = none → decode cw = .ok i → step s = exec i (s.withInbox rest)

/-- The step relation takes what is presented as its parameter and knows nothing of the stream: on any events still to
come it does the same and leaves them alone (00_scope.md R14, 10_state.md R23; that they stand in the state at all is the
model's choice, log entry 1). -/
def Obligations.PerformedEventSeesNoStream : Prop :=
  ∀ (ev : HostEvent) (s : State),
    (∀ t, perform ev s = .next t → t.inbox = s.inbox ∧
      ∀ evs, perform ev (s.withInbox evs) = .next (t.withInbox evs)) ∧
    (∀ r, perform ev s = .fault r → ∀ evs, perform ev (s.withInbox evs) = .fault r) ∧
    (∀ r, perform ev s = .refused r → ∀ evs, perform ev (s.withInbox evs) = .refused r)

/-- A run of the host's interface is the step relation run over a stream given as argument: the steps over a stream that
stands in the state, whatever comes after it, end as `performAll` of it does, with the rest still to come (00_scope.md R14,
10_state.md R23, 70_reset_and_hazards.md R169; log entry 1). -/
def Obligations.RunTakesItsStreamAsArgument : Prop :=
  ∀ (evs rest : List HostEvent) (s : State),
    (∀ t, performAll evs s = .next t →
      Host.Core.run core evs.length (s.withInbox (evs ++ rest)) = .next (t.withInbox rest)) ∧
    (∀ r, performAll evs s = .fault r → Host.Core.run core evs.length (s.withInbox (evs ++ rest)) = .fault r) ∧
    (∀ r, performAll evs s = .refused r → Host.Core.run core evs.length (s.withInbox (evs ++ rest)) = .refused r)

/-- A word of the opcode table that is presented is what the next step runs, and nothing else is in the way (how a table
word reaches the command port is the model's choice, log entry 8). -/
def Obligations.PresentedTableWordRunsNext : Prop :=
  ∀ (s : State) (nbits w : Nat) (i : Instr), s.faulted = none → decodeTableWord nbits w = some i →
    step (s.withFetchWord nbits w) = exec i s

/-- With nothing presented the machine waits and nothing changes (log entry 4). -/
def Obligations.NothingPresentedChangesNothing : Prop := ∀ s : State, s.inbox = [] → step s = .next s

/-- `RESET` zeroes the bound bitmap and `FAULTED`, makes the bound segment one that was reset, and changes nothing else
but that it is taken from the stream (70_reset_and_hazards.md R160, R161). -/
def Obligations.ResetEventZeroesTheBoundMap : Prop :=
  ∀ (s : State) (rest : List HostEvent), s.inbox = .reset :: rest →
    ∃ t, step s = .next t ∧ (∀ idx < 8192, t.mapByte idx = 0x00#8) ∧ t.FAULTED = false ∧ t.bound = s.bound ∧
      (∀ seg, seg ∈ t.zeroed ↔ seg = s.bound ∨ seg ∈ s.zeroed) ∧
      (∀ a, ¬(mapAddr s.bound 0 ≤ a ∧ a < mapAddr s.bound 8192) → Memory.read t.mem a = Memory.read s.mem a) ∧
      t.inbox = rest ∧ t.responses = s.responses

/-- `BIND` changes which bitmap is bound and nothing else: every bitmap keeps its contents (92_eei_decisions.md D13; log
entry 7 for how the bitmaps are kept). -/
def Obligations.BindEventKeepsEveryMap : Prop :=
  ∀ (s : State) (seg : Half) (rest : List HostEvent), s.inbox = .bind seg :: rest →
    ∃ t, step s = .next t ∧ t.bound = seg ∧ t.mem = s.mem ∧ t.zeroed = s.zeroed ∧ t.faulted = s.faulted ∧
      t.inbox = rest ∧ t.responses = s.responses

/-- A machine that has faulted performs no command, whatever the word (60_exceptions.md R143; that it stops with the fault
outcome at the next command is the model's choice, log entry 5). -/
def Obligations.FaultedMachinePerformsNoCommand : Prop :=
  ∀ (s : State) (cw : CommandWord) (rest : List HostEvent) (idx : Nat),
    s.inbox = .command cw :: rest → s.faulted = some idx → step s = .fault (.boundsViolation idx)

/-- The state right after reset: every byte 0x00, no position marked, `FAULTED` 0 (10_state.md R30, R31), whichever segment
is bound (the bound segment itself is the model's choice, log entry 3). -/
def Obligations.ResetStateIsZeroed : Prop :=
  (∀ idx < 8192, State.reset.mapByte idx = 0x00#8 ∧ State.reset.hostRead idx = some 0x00#8) ∧
  (∀ p < 65536, State.reset.bit p = false) ∧ State.reset.FAULTED = false ∧ State.reset.mapReady = true

/-! ### PADCNT (40_padcount.md) -/

/-- PADCNT answers the triple of R80, computed over the naturals, each count fitting its 16 bits. -/
def Obligations.PadcntAnswersTheTriple : Prop :=
  ∀ (start len : Half) (s : State),
    let startAlign := start.toNat / 8 * 8
    let leading := min (8 - (start.toNat - startAlign)) len.toNat % 8
    let full := (len.toNat - leading) / 8
    let trailing := len.toNat - leading - full * 8
    ∃ l f t : Half, exec (.padcnt start len) s = .next (s.respond (.counts l f t)) ∧
      l.toNat = leading ∧ f.toNat = full ∧ t.toNat = trailing

/-- The four cases of R81. -/
def Obligations.PadcntCaseAnalysis : Prop :=
  ∀ (start len : Half) (s : State), ∃ l f t : Half, exec (.padcnt start len) s = .next (s.respond (.counts l f t)) ∧
    let r := 8 - start.toNat % 8
    (len.toNat = 0 → l.toNat = 0 ∧ f.toNat = 0 ∧ t.toNat = 0) ∧
    (start.toNat % 8 = 0 ∧ 8 ≤ len.toNat → l.toNat = 0 ∧ f.toNat = len.toNat / 8 ∧ t.toNat = len.toNat % 8) ∧
    ((1 ≤ len.toNat ∧ len.toNat < r) ∨ (len.toNat = r ∧ 0 < start.toNat % 8) →
      l.toNat = len.toNat ∧ f.toNat = 0 ∧ t.toNat = 0) ∧
    (0 < start.toNat % 8 ∧ r < len.toNat →
      l.toNat = r ∧ f.toNat = (len.toNat - r) / 8 ∧ t.toNat = (len.toNat - r) % 8) ∧
    (len.toNat = 0 ∨ (start.toNat % 8 = 0 ∧ 8 ≤ len.toNat) ∨
      ((1 ≤ len.toNat ∧ len.toNat < r) ∨ (len.toNat = r ∧ 0 < start.toNat % 8)) ∨
      (0 < start.toNat % 8 ∧ r < len.toNat))

/-- The sum law and the ranges of R82, for PADCNT's own operand and for the working length of FILL and QUERY. -/
def Obligations.PadcntSumLawAndRanges : Prop :=
  (∀ (start len : Half) (s : State), ∃ l f t : Half, exec (.padcnt start len) s = .next (s.respond (.counts l f t)) ∧
    l.toNat + f.toNat * 8 + t.toNat = len.toNat ∧
    l.toNat ≤ 7 ∧ t.toNat ≤ 7 ∧ f.toNat ≤ 8191 ∧ l.toNat ≤ len.toNat ∧ l.toNat ≤ 8 - start.toNat % 8) ∧
  ∀ start len : Half, let c := padCounts start.toNat (workingLen start.toNat len.toNat)
    c.leading + c.full * 8 + c.trailing = min len.toNat (65536 - start.toNat)

/-- The shape facts of R83. -/
def Obligations.PadcntShapeFacts : Prop :=
  ∀ (start len : Half) (s : State), ∃ l f t : Half, exec (.padcnt start len) s = .next (s.respond (.counts l f t)) ∧
    start.toNat % 8 + l.toNat ≤ 8 ∧
    (0 < f.toNat ∨ 0 < t.toNat →
      ((l.toNat = 0 ∧ start.toNat % 8 = 0) ∨ l.toNat = 8 - start.toNat % 8) ∧ (start.toNat + l.toNat) % 8 = 0) ∧
    (l.toNat = 0 ↔ len.toNat = 0 ∨ (start.toNat % 8 = 0 ∧ 8 ≤ len.toNat)) ∧
    (l.toNat = 0 → f.toNat = 0 → t.toNat = 0 ∧ len.toNat = 0)

/-- 16-bit modular arithmetic computes the same triple (R86). -/
def Obligations.PadcntInSixteenBitArithmetic : Prop :=
  ∀ (start len : Half) (s : State),
    let startAlign : Half := start / 8#16 * 8#16
    let toBoundary : Half := 8#16 - (start - startAlign)
    let leading : Half := (if toBoundary ≤ len then toBoundary else len) % 8#16
    let full : Half := (len - leading) / 8#16
    let trailing : Half := len - leading - full * 8#16
    exec (.padcnt start len) s = .next (s.respond (.counts leading full trailing))

/-! ### The masks (41_mask.md) -/

/-- SMASK answers the byte with the low `n` bits set, saturating at 8 (R90). -/
def Obligations.SmaskAnswersTheLowBits : Prop :=
  ∀ (n : Byte) (s : State), ∃ m : Byte, exec (.smask n) s = .next (s.respond (.mask m)) ∧
    (8 ≤ n.toNat → m = 0xFF#8) ∧ (n.toNat < 8 → m.toNat = 2 ^ n.toNat - 1) ∧
    ∀ k < 8, m.getLsbD k = decide (k < n.toNat)

/-- EMASK answers the byte with the high `n` bits set, saturating at 8 (R91). -/
def Obligations.EmaskAnswersTheHighBits : Prop :=
  ∀ (n : Byte) (s : State), ∃ m : Byte, exec (.emask n) s = .next (s.respond (.mask m)) ∧
    (8 ≤ n.toNat → m = 0xFF#8) ∧ (n.toNat < 8 → m.toNat = 255 * 2 ^ (8 - n.toNat) % 256) ∧
    ∀ k < 8, m.getLsbD k = decide (8 - n.toNat ≤ k)

/-- BMASK answers `0x80 >> i`, which has the one bit of value `2 ^ (7 - i)` (R92). -/
def Obligations.BmaskAnswersTheSingleBit : Prop :=
  ∀ (j : BitVec 3) (s : State), ∃ m : Byte, exec (.bmask j) s = .next (s.respond (.mask m)) ∧
    m = 0x80#8 >>> j.toNat ∧ m.toNat = 2 ^ (7 - j.toNat) ∧ ∀ k < 8, m.getLsbD k = decide (k = 7 - j.toNat)

/-- In positions, `end_mask` covers the first `n` of a group and `start_mask` the last `n` (R93). -/
def Obligations.MasksCoverFirstAndLastPositions : Prop :=
  ∀ (n : Byte) (o : Nat), o < 8 →
    (anyUnder (endMask n) (0x80#8 >>> o) = true ↔ o < n.toNat) ∧
    (anyUnder (startMask n) (0x80#8 >>> o) = true ↔ 8 ≤ o + n.toNat)

/-- The single-bit mask of an index that may be wider than three bits is `0x80 >> i` up to 7 and has no value above 7: a
part of an engine that asks for one is refused, and no command on any operands ever asks (R92;
93_implementation_defined.md U2; 40_padcount.md R83(a)). -/
def Obligations.SingleBitMasksEndAtSeven : Prop :=
  (∀ i < 8, offsetMask i = some (0x80#8 >>> i)) ∧ (∀ i, 8 ≤ i → offsetMask i = none) ∧
  (∀ (cap target off k : Nat) (s : State), 8 ≤ off → 0 < k →
    fillOutcome (fillLeading cap target off k s) = .refused (.noBitMask off) ∧
    queryOutcome s (queryLeading cap target s off k) = .refused (.noBitMask off)) ∧
  ∀ (i : Instr) (s : State) (k : Nat), exec i s ≠ .refused (.noBitMask k)

/-- The laws of R94: complements, saturation, the OR of single-bit masks, monotonicity. -/
def Obligations.MaskLaws : Prop :=
  (∀ n ≤ 8, startMask (BitVec.ofNat 8 n) ||| endMask (BitVec.ofNat 8 (8 - n)) = 0xFF#8 ∧
    startMask (BitVec.ofNat 8 n) &&& endMask (BitVec.ofNat 8 (8 - n)) = 0x00#8) ∧
  (∀ n : Byte, startMask n = startMask (BitVec.ofNat 8 (min n.toNat 8)) ∧
    endMask n = endMask (BitVec.ofNat 8 (min n.toNat 8))) ∧
  (∀ n ≤ 8,
    startMask (BitVec.ofNat 8 n) = (List.range' (8 - n) n).foldl (fun b o => b ||| (0x80#8 >>> o)) 0x00#8 ∧
    endMask (BitVec.ofNat 8 n) = (List.range n).foldl (fun b o => b ||| (0x80#8 >>> o)) 0x00#8) ∧
  ∀ m n : Byte, m.toNat ≤ n.toNat →
    startMask m &&& startMask n = startMask m ∧ endMask m &&& endMask n = endMask m

/-- The leading run as one mask (R96). -/
def Obligations.LeadingRunAsOneMask : Prop :=
  ∀ o L : Nat, o < 8 → o + L ≤ 8 →
    let run := (List.range L).foldl (fun b k => b ||| (0x80#8 >>> (o + k))) 0x00#8
    run = (0xFF#8 >>> o) &&& (0xFF#8 <<< (8 - o - L)) ∧
    run = startMask (BitVec.ofNat 8 (8 - o)) &&& endMask (BitVec.ofNat 8 (o + L)) ∧
    (run = startMask (BitVec.ofNat 8 L) ↔ o + L = 8 ∨ L = 0)

/-! ### The bitmap (20_memory.md) -/

/-- The bit-order invariant: position `p` is the bit of value `0x80 >> (p mod 8)` of byte `p / 8`, and FILL of the one
position `p` ORs exactly that bit in (R41). -/
def Obligations.BitOrderIsMsbFirst : Prop :=
  ∀ (s : State) (p : Half),
    (s.bit p.toNat = true ↔ (s.mapByte (p.toNat / 8) >>> (7 - p.toNat % 8)) &&& 1#8 = 1#8) ∧
    (s.mapReady = true → ∃ t, exec (.fill p 1#16) s = .next t ∧
      t.mapByte (p.toNat / 8) = s.mapByte (p.toNat / 8) ||| (0x80#8 >>> (p.toNat % 8)) ∧
      ∀ idx < 8192, idx ≠ p.toNat / 8 → t.mapByte idx = s.mapByte idx)

/-- The byte indices of a pass are, in ascending order, the bytes of the covered positions, and over a buffer of `cap`
bytes a FILL pass completes exactly when each of them is in the buffer (R45). -/
def Obligations.TouchedBytesAreThoseOfTheRange : Prop :=
  ∀ start len : Nat, start + len ≤ 65536 →
    (∀ idx, idx ∈ touched start len ↔ ∃ p, start ≤ p ∧ p < start + len ∧ idx = p / 8) ∧
    (touched start len).Pairwise (· ≤ ·) ∧
    ∀ (cap : Nat) (s : State), (∃ t, fillPass cap start len s = .ok t) ↔ ∀ idx ∈ touched start len, idx < cap

/-- For all operands every byte index of the first pass, and of the second pass of a wrapping FILL, is in the bitmap
(R46). -/
def Obligations.EveryIndexIsInTheMap : Prop :=
  ∀ start len : Half,
    (∀ idx ∈ touched start.toNat (workingLen start.toNat len.toNat), idx ≤ 8191) ∧
    start.toNat + workingLen start.toNat len.toNat ≤ 65536 ∧
    (∀ idx ∈ touched 0 (remainder start.toNat len.toNat), idx ≤ 8191)

/-! ### FILL (42_fill.md) -/

/-- The closed form: FILL, on a bitmap that `RESET` has zeroed, completes and sets exactly the positions of `S(start, len)`
besides those already set; these are `len` different positions, an interval, or an interval and its wrapped tail
(R107). -/
def Obligations.FillSetsExactlyItsPositions : Prop :=
  (∀ (start len : Half) (s : State), s.mapReady = true → ∃ t, exec (.fill start len) s = .next t ∧
    ∀ p < 65536, (t.bit p = true ↔ s.bit p = true ∨ inFillSet start.toNat len.toNat p)) ∧
  (∀ (start len : Half) (j k : Nat), j < len.toNat → k < len.toNat →
    (start.toNat + j) % 65536 = (start.toNat + k) % 65536 → j = k) ∧
  ∀ (start len : Half) (p : Nat), p < 65536 → (inFillSet start.toNat len.toNat p ↔
    (start.toNat ≤ p ∧ p < start.toNat + len.toNat) ∨ p + 65536 < start.toNat + len.toNat)

/-- FILL changes bytes of the bound bitmap that hold a position of its range and answers an empty response; every other
byte of memory and the rest of the state are as before (R106). -/
def Obligations.FillChangesNothingElse : Prop :=
  ∀ (start len : Half) (s : State), s.mapReady = true → ∃ t, exec (.fill start len) s = .next t ∧
    (∀ a, (∀ p, inFillSet start.toNat len.toNat p → a ≠ mapAddr s.bound (p / 8)) →
      Memory.read t.mem a = Memory.read s.mem a) ∧
    t.responses = s.responses ++ [.done] ∧ sameBut s t

/-- The bytes of a FILL that does not wrap: OR-in of the leading run, 0xFF, OR-in of `end_mask`, the trailing byte being
the one after the last full byte (R103 to R105). -/
def Obligations.FillWritesTheThreeParts : Prop :=
  ∀ (start len : Half) (s : State), s.mapReady = true → start.toNat + len.toNat ≤ 65536 →
    ∃ t, exec (.fill start len) s = .next t ∧
      let c := padCounts start.toNat len.toNat
      let base := start.toNat / 8 + if c.leading > 0 then 1 else 0
      (c.leading > 0 → t.mapByte (start.toNat / 8) = s.mapByte (start.toNat / 8) |||
        (startMask (BitVec.ofNat 8 (8 - start.toNat % 8)) &&&
          endMask (BitVec.ofNat 8 (start.toNat % 8 + c.leading)))) ∧
      (∀ k < c.full, t.mapByte (base + k) = 0xFF#8) ∧
      (c.trailing > 0 → t.mapByte (base + c.full) =
        s.mapByte (base + c.full) ||| endMask (BitVec.ofNat 8 c.trailing))

/-- A wrapping FILL is the fill of the truncated range and the fill of the remainder from position 0 of the same segment,
in either order; it never wraps twice (R101). -/
def Obligations.WrappingFillIsTwoFills : Prop :=
  ∀ (start len : Half) (s : State), s.mapReady = true → 65536 < start.toNat + len.toNat →
    ∃ t u v u' v', exec (.fill start len) s = .next t ∧
      exec (.fill start (BitVec.ofNat 16 (65536 - start.toNat))) s = .next u ∧
      exec (.fill 0#16 (BitVec.ofNat 16 (start.toNat + len.toNat - 65536))) u = .next v ∧
      exec (.fill 0#16 (BitVec.ofNat 16 (start.toNat + len.toNat - 65536))) s = .next u' ∧
      exec (.fill start (BitVec.ofNat 16 (65536 - start.toNat))) u' = .next v' ∧
      sameMaps t v ∧ sameMaps t v' ∧
      start.toNat + (65536 - start.toNat) ≤ 65536 ∧ start.toNat + len.toNat - 65536 ≤ 65534

/-- FILL never clears a bit, of any segment (R108). -/
def Obligations.FillNeverClearsABit : Prop :=
  ∀ (start len : Half) (s : State), s.mapReady = true → ∃ t, exec (.fill start len) s = .next t ∧
    ∀ seg, ∀ p < 65536, s.bitOf seg p = true → t.bitOf seg p = true

/-- FILL twice is FILL once; on memories in canonical form the two memories are the same data (R109). -/
def Obligations.FillIsIdempotent : Prop :=
  ∀ (start len : Half) (s : State), s.mapReady = true →
    ∃ t u, exec (.fill start len) s = .next t ∧ exec (.fill start len) t = .next u ∧ sameMaps t u ∧
      (Memory.wf s.mem → u.mem = t.mem)

/-- FILL sets no bit outside its range (R110). -/
def Obligations.FillSetsNothingOutsideItsRange : Prop :=
  ∀ (start len : Half) (s : State), s.mapReady = true → ∃ t, exec (.fill start len) s = .next t ∧
    ∀ p < 65536, ¬inFillSet start.toNat len.toNat p → t.bit p = s.bit p

/-- Two FILLs commute, and after any list of FILLs the set positions are the old ones and those of each; from reset, those
of each (R111). -/
def Obligations.FillsCommuteAndAccumulate : Prop :=
  (∀ (a b c d : Half) (s : State), s.mapReady = true →
    ∃ t t', execAll [.fill a b, .fill c d] s = .next t ∧ execAll [.fill c d, .fill a b] s = .next t' ∧
      sameMaps t t' ∧ (Memory.wf s.mem → t.mem = t'.mem)) ∧
  (∀ (fills : List (Half × Half)) (s : State), s.mapReady = true →
    ∃ t, execAll (fills.map fun f => .fill f.1 f.2) s = .next t ∧
      ∀ p < 65536, (t.bit p = true ↔ s.bit p = true ∨ ∃ f ∈ fills, inFillSet f.1.toNat f.2.toNat p)) ∧
  ∀ fills : List (Half × Half),
    ∃ t, execAll (fills.map fun f => .fill f.1 f.2) State.reset = .next t ∧
      ∀ p < 65536, (t.bit p = true ↔ ∃ f ∈ fills, inFillSet f.1.toNat f.2.toNat p)

/-- FILL over a buffer of any length `cap` that does not hold the range: the fault at the first byte that is not in the
buffer, the bytes before it written, no response (R112; 60_exceptions.md R140; 93_implementation_defined.md U1, U7). That
the buffer length is an argument of the engine is the model's choice (log entry 9), and so is the fault outcome of the next
command (log entry 5). -/
def Obligations.FillFaultsAtTheFirstByteOutside : Prop :=
  ∀ (cap : Nat) (start len : Half) (s : State),
    let stop := min (start.toNat + len.toNat) 65536
    0 < len.toNat → cap ≤ (stop - 1) / 8 →
      ∃ t, fillOutcome (fillRange cap start.toNat len.toNat s) = .next t ∧
        t.faulted = some (max cap (start.toNat / 8)) ∧ t.responses = s.responses ∧
        (∀ p < 65536, (t.bit p = true ↔ s.bit p = true ∨ (start.toNat ≤ p ∧ p < stop ∧ p / 8 < cap))) ∧
        ∀ cw rest, step (t.withInbox (.command cw :: rest)) =
          .fault (.boundsViolation (max cap (start.toNat / 8)))

/-! ### QUERY (43_query.md) -/

/-- The closed form: QUERY completes and answers whether some position of `[start, start + len')` is set, with
`len' = min(len, 0x10000 - start)` (R125). -/
def Obligations.QueryAnswersTheClosedForm : Prop :=
  ∀ (start len : Half) (s : State), s.mapReady = true → ∃ h, exec (.query start len) s = .next (s.respond (.hit h)) ∧
    (h = true ↔ ∃ k, k < min len.toNat (65536 - start.toNat) ∧ s.bit (start.toNat + k) = true)

/-- A range just filled is found, wrapping or not, unless it is empty; a query of an empty range is false (R126). -/
def Obligations.QueryFindsWhatFillMarked : Prop :=
  ∀ (start len : Half) (s : State), s.mapReady = true →
    (len ≠ 0#16 → ∃ t, exec (.fill start len) s = .next t ∧
      exec (.query start len) t = .next (t.respond (.hit true))) ∧
    exec (.query start 0#16) s = .next (s.respond (.hit false))

/-- The answer depends on no position below `start`, so the wrapped tail is not examined (R121). -/
def Obligations.QueryIgnoresTheWrappedTail : Prop :=
  ∀ (start len : Half) (s t : State), s.mapReady = true → t.mapReady = true →
    (∀ p, start.toNat ≤ p → p < 65536 → s.bit p = t.bit p) →
    ∃ h, exec (.query start len) s = .next (s.respond (.hit h)) ∧ exec (.query start len) t = .next (t.respond (.hit h))

/-- The three consequences of the asymmetry between FILL and QUERY (R128). -/
def Obligations.WrapAsymmetryConsequences : Prop :=
  ∀ s : State, s.mapReady = true →
    ((∀ p, 0xFFFC ≤ p → p < 65536 → s.bit p = false) → ∃ t, exec (.fill 0#16 4#16) s = .next t ∧
      exec (.query 0xFFFC#16 8#16) t = .next (t.respond (.hit false))) ∧
    (∃ t, exec (.fill 0xFFFC#16 8#16) s = .next t ∧ exec (.query 0#16 4#16) t = .next (t.respond (.hit true))) ∧
    ((∀ p, 4096 ≤ p → p < 65536 → s.bit p = false) →
      exec (.query 0x1000#16 0xFFFF#16) s = .next (s.respond (.hit false)))

/-- After any list of FILLs the answer of a QUERY is given by the old bitmap and the ranges filled (20_memory.md R51). -/
def Obligations.QueryAfterFillsSeesTheirUnion : Prop :=
  ∀ (fills : List (Half × Half)) (start len : Half) (s : State), s.mapReady = true →
    ∃ t h, execAll (fills.map fun f => .fill f.1 f.2) s = .next t ∧
      exec (.query start len) t = .next (t.respond (.hit h)) ∧
      (h = true ↔ ∃ p, start.toNat ≤ p ∧ p < start.toNat + len.toNat ∧ p < 65536 ∧
        (s.bit p = true ∨ ∃ f ∈ fills, inFillSet f.1.toNat f.2.toNat p))

/-- QUERY over a buffer of any length `cap`: `true` if a position before the buffer's end is set, else the fault at the
first byte that is not in the buffer; nothing is written (R129; the buffer length as an argument is the model's choice, log
entry 9). -/
def Obligations.QueryFaultsOnlyBeforeAHit : Prop :=
  ∀ (cap : Nat) (start len : Half) (s : State),
    let stop := min (start.toNat + len.toNat) 65536
    0 < len.toNat → cap ≤ (stop - 1) / 8 →
      ((∃ p, start.toNat ≤ p ∧ p < stop ∧ p / 8 < cap ∧ s.bit p = true) →
        queryOutcome s (queryRange cap start.toNat len.toNat s) = .next (s.respond (.hit true))) ∧
      ((∀ p, start.toNat ≤ p → p < stop → p / 8 < cap → s.bit p = false) →
        queryOutcome s (queryRange cap start.toNat len.toNat s) = .next (s.raiseBounds (max cap (start.toNat / 8))))

/-! ### The whole machine -/

/-- FILL and QUERY on a bitmap that `RESET` has not zeroed are refused (70_reset_and_hazards.md R161). -/
def Obligations.MapCommandsNeedReset : Prop :=
  ∀ (start len : Half) (s : State), s.mapReady = false →
    exec (.fill start len) s = .refused (.mapNotReset s.bound) ∧
    exec (.query start len) s = .refused (.mapNotReset s.bound)

/-- Every command completes, with one response more and `FAULTED` as it was, on every operand; PADCNT and the masks need
no bitmap that was reset (60_exceptions.md R141, R142; for the latter log entry 6). -/
def Obligations.EveryCommandCompletes : Prop :=
  ∀ (i : Instr) (s : State), (touchesMap i = true → s.mapReady = true) →
    ∃ t, exec i s = .next t ∧ (∃ r, t.responses = s.responses ++ [r]) ∧ sameBut s t

/-- A command other than FILL leaves every bitmap and everything but the list of responses as it was (10_state.md R29(c);
that PADCNT and the masks need no bitmap that was reset is the model's reading, log entry 6). -/
def Obligations.OtherCommandsChangeNothing : Prop :=
  ∀ (i : Instr) (s : State), (touchesMap i = true → s.mapReady = true) → (∀ start len, i ≠ .fill start len) →
    ∃ r, exec i s = .next (s.respond r) ∧ (∀ a, Memory.read (s.respond r).mem a = Memory.read s.mem a)

/-- The three invariants of `MAP` (10_state.md R29): its length, that no command clears a bit, that only FILL changes
it. -/
def Obligations.MapInvariantsOfCommands : Prop :=
  ∀ (i : Instr) (s t : State), exec i s = .next t →
    (∀ idx, s.mapReady = true → ((t.hostRead idx).isSome = true ↔ idx < 8192)) ∧
    (∀ seg, ∀ p < 65536, s.bitOf seg p = true → t.bitOf seg p = true) ∧
    ((∀ start len, i ≠ .fill start len) → t.mem = s.mem)

/-- A step clears a bit only when it is the environment's `RESET` of that bit's segment (10_state.md R30). -/
def Obligations.OnlyResetClearsABit : Prop :=
  ∀ (s t : State) (seg : Half) (p : Nat), p < 65536 → step s = .next t → s.bitOf seg p = true →
    t.bitOf seg p = false → seg = s.bound ∧ ∃ rest, s.inbox = .reset :: rest

/-- Only `BIND` changes which segment is bound, and only `RESET` makes a segment one that was reset. -/
def Obligations.OnlyTheEnvironmentBindsAndResets : Prop :=
  ∀ s t : State, step s = .next t →
    (t.bound ≠ s.bound → ∃ seg rest, s.inbox = .bind seg :: rest) ∧
    (t.zeroed ≠ s.zeroed → ∃ rest, s.inbox = .reset :: rest)

/-- The fault is unreachable: a machine that has not faulted does not fault, and stays so (60_exceptions.md R142). -/
def Obligations.BoundsViolationIsUnreachable : Prop :=
  ∀ s : State, s.faulted = none → (∀ r, step s ≠ .fault r) ∧ ∀ t, step s = .next t → t.faulted = none

/-- A faulted machine gets out of that state by `RESET` alone (60_exceptions.md R144; that it can wait and be bound while
it is faulted is the model's choice, log entry 5). -/
def Obligations.OnlyResetEndsTheFault : Prop :=
  ∀ (s t : State) (idx : Nat), s.faulted = some idx → step s = .next t →
    t.faulted = some idx ∨ (t.faulted = none ∧ ∃ rest, s.inbox = .reset :: rest)

/-- Different segments are independent: a command leaves every bitmap but the bound one alone, and what it answers and
does to the bound one depends on no other (20_memory.md R52). -/
def Obligations.SegmentsAreIndependent : Prop :=
  ∀ (i : Instr) (s t s' : State), exec i s = .next s' → t.mapReady = true → t.bound = s.bound →
    (∀ idx < 8192, t.mapByte idx = s.mapByte idx) →
    (∀ seg, seg ≠ s.bound → ∀ idx < 8192, s'.byteOf seg idx = s.byteOf seg idx) ∧
    ∃ t' r, exec i t = .next t' ∧ s'.responses = s.responses ++ [r] ∧ t'.responses = t.responses ++ [r] ∧
      ∀ idx < 8192, t'.mapByte idx = s'.mapByte idx

/-- No command reads an earlier response, or an event that is still to come (10_state.md R22; that both stand in the state
is the model's choice, log entries 1 and 2). -/
def Obligations.ResponsesAndInboxAreNotRead : Prop :=
  ∀ (i : Instr) (s t : State) (rs : List Response) (evs : List HostEvent), exec i s = .next t →
    ∃ r, t.responses = s.responses ++ [r] ∧
      exec i { s with responses := rs, inbox := evs } = .next { t with responses := rs ++ [r], inbox := evs }

/-- The invariant of the machine holds right after reset (the form of memory is the model's choice, log entry 7). -/
def Obligations.ResetMeetsTheInvariant : Prop := State.reset.Inv

/-- Every step keeps the invariant: memory in canonical form, bytes only in bitmaps that exist and that `RESET` has
zeroed, no segment listed twice (the form of memory is the model's choice, log entry 7). -/
def Obligations.EveryStepKeepsTheInvariant : Prop := ∀ s t : State, s.Inv → step s = .next t → t.Inv

/-! ### Text (30_encoding.md R68) -/

/-- Lines of the syntax and the words and events they stand for, in either spelling (R68; what the rule leaves open of the
syntax is the model's choice, log entry 10). -/
def Obligations.LinesOfTextStandForWords : Prop :=
  parseLine "FILL 0, 24 ; a record" = .ok (some (.command 0x400000018#35)) ∧
  parseLine "fill(map, 7, 9)" = .ok (some (.command 0x400070009#35)) ∧
  parseLine "QUERY 0x1000, 0xFFFF" = .ok (some (.command 0x51000FFFF#35)) ∧
  parseLine "compute_pad_counts(4, 8)" = .ok (some (.command 0x000040008#35)) ∧
  parseLine "SMASK 0b111" = .ok (some (.command 0x100000007#35)) ∧
  parseLine "end_mask(4)" = .ok (some (.command 0x200000004#35)) ∧
  parseLine "BMASK 7" = .ok (some (.command 0x300000007#35)) ∧
  parseLine "RESET" = .ok (some .reset) ∧ parseLine "BIND 1" = .ok (some (.bind 1#16)) ∧
  parseLine "BMASK 8" = .error .outOfRange
end

