-- ==== Sys2Proof/Laws/State.lean ====
section
/-!
SUPPORT. One lemma for each field of the state under each update, and what the updates do to the bytes read.
-/
namespace Sys2Proof.Machine

variable (s : State) (m : Memory) (evs : List HostEvent) (r : Response) (idx k : Nat) (v : Byte) (seg seg' : Half)

@[simp] theorem State.withMem_mem : (s.withMem m).mem = m := rfl
@[simp] theorem State.withMem_bound : (s.withMem m).bound = s.bound := rfl
@[simp] theorem State.withMem_zeroed : (s.withMem m).zeroed = s.zeroed := rfl
@[simp] theorem State.withMem_faulted : (s.withMem m).faulted = s.faulted := rfl
@[simp] theorem State.withMem_inbox : (s.withMem m).inbox = s.inbox := rfl
@[simp] theorem State.withMem_responses : (s.withMem m).responses = s.responses := rfl
@[simp] theorem State.withMem_self : s.withMem s.mem = s := rfl
@[simp] theorem State.withMem_withMem (m' : Memory) : (s.withMem m).withMem m' = s.withMem m' := rfl

@[simp] theorem State.withInbox_mem : (s.withInbox evs).mem = s.mem := rfl
@[simp] theorem State.withInbox_bound : (s.withInbox evs).bound = s.bound := rfl
@[simp] theorem State.withInbox_zeroed : (s.withInbox evs).zeroed = s.zeroed := rfl
@[simp] theorem State.withInbox_faulted : (s.withInbox evs).faulted = s.faulted := rfl
@[simp] theorem State.withInbox_inbox : (s.withInbox evs).inbox = evs := rfl
@[simp] theorem State.withInbox_responses : (s.withInbox evs).responses = s.responses := rfl

@[simp] theorem State.respond_mem : (s.respond r).mem = s.mem := rfl
@[simp] theorem State.respond_bound : (s.respond r).bound = s.bound := rfl
@[simp] theorem State.respond_zeroed : (s.respond r).zeroed = s.zeroed := rfl
@[simp] theorem State.respond_faulted : (s.respond r).faulted = s.faulted := rfl
@[simp] theorem State.respond_inbox : (s.respond r).inbox = s.inbox := rfl
@[simp] theorem State.respond_responses : (s.respond r).responses = s.responses ++ [r] := rfl

@[simp] theorem State.raiseBounds_mem : (s.raiseBounds idx).mem = s.mem := rfl
@[simp] theorem State.raiseBounds_bound : (s.raiseBounds idx).bound = s.bound := rfl
@[simp] theorem State.raiseBounds_zeroed : (s.raiseBounds idx).zeroed = s.zeroed := rfl
@[simp] theorem State.raiseBounds_faulted : (s.raiseBounds idx).faulted = some idx := rfl
@[simp] theorem State.raiseBounds_inbox : (s.raiseBounds idx).inbox = s.inbox := rfl
@[simp] theorem State.raiseBounds_responses : (s.raiseBounds idx).responses = s.responses := rfl

@[simp] theorem State.setByte_mem : (s.setByte idx v).mem = Memory.write s.mem (mapAddr s.bound idx) v := rfl
@[simp] theorem State.setByte_bound : (s.setByte idx v).bound = s.bound := rfl
@[simp] theorem State.setByte_zeroed : (s.setByte idx v).zeroed = s.zeroed := rfl
@[simp] theorem State.setByte_faulted : (s.setByte idx v).faulted = s.faulted := rfl
@[simp] theorem State.setByte_inbox : (s.setByte idx v).inbox = s.inbox := rfl
@[simp] theorem State.setByte_responses : (s.setByte idx v).responses = s.responses := rfl

@[simp] theorem State.resetEvent_mem :
    s.resetEvent.mem = Memory.clear s.mem (mapAddr s.bound 0) (mapAddr s.bound Config.segmentBytes) := rfl
@[simp] theorem State.resetEvent_bound : s.resetEvent.bound = s.bound := rfl
@[simp] theorem State.resetEvent_zeroed :
    s.resetEvent.zeroed = addSegment s.zeroed s.bound := rfl
@[simp] theorem State.resetEvent_faulted : s.resetEvent.faulted = none := rfl
@[simp] theorem State.resetEvent_inbox : s.resetEvent.inbox = s.inbox := rfl
@[simp] theorem State.resetEvent_responses : s.resetEvent.responses = s.responses := rfl

@[simp] theorem State.bindEvent_mem : (s.bindEvent seg).mem = s.mem := rfl
@[simp] theorem State.bindEvent_bound : (s.bindEvent seg).bound = seg := rfl
@[simp] theorem State.bindEvent_zeroed : (s.bindEvent seg).zeroed = s.zeroed := rfl
@[simp] theorem State.bindEvent_faulted : (s.bindEvent seg).faulted = s.faulted := rfl
@[simp] theorem State.bindEvent_inbox : (s.bindEvent seg).inbox = s.inbox := rfl
@[simp] theorem State.bindEvent_responses : (s.bindEvent seg).responses = s.responses := rfl

/-! ### What is read after an update that leaves the bitmaps alone -/

@[simp] theorem State.withInbox_byteOf : (s.withInbox evs).byteOf seg k = s.byteOf seg k := rfl
@[simp] theorem State.respond_byteOf : (s.respond r).byteOf seg k = s.byteOf seg k := rfl
@[simp] theorem State.raiseBounds_byteOf : (s.raiseBounds idx).byteOf seg k = s.byteOf seg k := rfl
@[simp] theorem State.bindEvent_byteOf : (s.bindEvent seg').byteOf seg k = s.byteOf seg k := rfl
@[simp] theorem State.withInbox_bitOf : (s.withInbox evs).bitOf seg k = s.bitOf seg k := rfl
@[simp] theorem State.respond_bitOf : (s.respond r).bitOf seg k = s.bitOf seg k := rfl
@[simp] theorem State.raiseBounds_bitOf : (s.raiseBounds idx).bitOf seg k = s.bitOf seg k := rfl
@[simp] theorem State.bindEvent_bitOf : (s.bindEvent seg').bitOf seg k = s.bitOf seg k := rfl
@[simp] theorem State.withInbox_bit : (s.withInbox evs).bit k = s.bit k := rfl
@[simp] theorem State.respond_bit : (s.respond r).bit k = s.bit k := rfl
@[simp] theorem State.withInbox_mapByte : (s.withInbox evs).mapByte k = s.mapByte k := rfl
@[simp] theorem State.respond_mapByte : (s.respond r).mapByte k = s.mapByte k := rfl
@[simp] theorem State.withInbox_mapReady : (s.withInbox evs).mapReady = s.mapReady := rfl
@[simp] theorem State.respond_mapReady : (s.respond r).mapReady = s.mapReady := rfl

@[simp] theorem mem_addSegment {zs : List Half} : seg' ∈ addSegment zs seg ↔ seg' = seg ∨ seg' ∈ zs := by
  unfold addSegment
  split
  · constructor
    · exact .inr
    · rintro (rfl | h) <;> assumption
  · exact List.mem_cons

theorem nodup_addSegment {zs : List Half} (h : zs.Nodup) : (addSegment zs seg).Nodup := by
  unfold addSegment
  split
  · exact h
  · exact List.nodup_cons.mpr ⟨‹_›, h⟩

/-- The launch premise, as membership. -/
theorem State.mapReady_iff : s.mapReady = true ↔ s.bound ∈ s.zeroed := by simp [State.mapReady]

end Sys2Proof.Machine
end

