-- ==== Sys2Proof/Laws/Memory.lean ====
section
/-!
SUPPORT. Bitmap memory: what is read after an operation, that every operation keeps the canonical form, and that
memories in canonical form that read alike are equal.
-/
namespace Sys2Proof.Machine

/-! ### What is read -/

theorem Memory.read_of_not_listed {m : Memory} {k : Nat} (h : ∀ c ∈ m, c.1 ≠ k) : Memory.read m k = 0 := by
  induction m with
  | nil => rfl
  | cons c m ih =>
    obtain ⟨a, v⟩ := c
    simp only [List.mem_cons, forall_eq_or_imp] at h
    simp [Memory.read, h.1, ih h.2]

theorem Memory.read_filter (m : Memory) (P : Nat → Bool) (k : Nat) :
    Memory.read (m.filter fun c => P c.1) k = if P k then Memory.read m k else 0 := by
  induction m with
  | nil => simp [Memory.read]
  | cons c m ih =>
    obtain ⟨a, v⟩ := c
    by_cases hak : a = k
    · subst hak
      by_cases hp : P a <;> simp [hp, Memory.read, ih]
    · by_cases hp : P a <;> simp [hp, Memory.read, hak, ih]

theorem Memory.read_erase (m : Memory) (j k : Nat) :
    Memory.read (Memory.erase m j) k = if k = j then 0 else Memory.read m k := by
  rw [Memory.erase, Memory.read_filter m (· != j) k]
  by_cases h : k = j <;> simp [h]

theorem Memory.read_clear (m : Memory) (lo hi k : Nat) :
    Memory.read (Memory.clear m lo hi) k = if lo ≤ k ∧ k < hi then 0 else Memory.read m k := by
  rw [Memory.clear, Memory.read_filter m (fun a => !(decide (lo ≤ a) && decide (a < hi))) k]
  by_cases h : lo ≤ k ∧ k < hi
  · simp [h]
  · rw [if_neg h, if_pos]
    simpa [or_iff_not_imp_left] using h

theorem Memory.read_insert {m : Memory} {j : Nat} (v : Byte) (h : ∀ c ∈ m, c.1 ≠ j) (k : Nat) :
    Memory.read (Memory.insert m j v) k = if k = j then v else Memory.read m k := by
  induction m with
  | nil => by_cases hk : j = k <;> simp [Memory.insert, Memory.read, hk, eq_comm]
  | cons c m ih =>
    obtain ⟨a, w⟩ := c
    simp only [List.mem_cons, forall_eq_or_imp] at h
    simp only [Memory.insert]
    split
    · by_cases hk : j = k <;> simp [Memory.read, hk, eq_comm]
    · by_cases hak : a = k
      · simp [Memory.read, ← hak, h.1]
      · simp [Memory.read, hak, ih h.2]

theorem Memory.erase_not_listed (m : Memory) (j : Nat) : ∀ c ∈ Memory.erase m j, c.1 ≠ j := by
  intro c hc
  simpa using (List.mem_filter.mp hc).2

/-- A byte reads as it was last written, and every other byte as before. -/
@[simp] theorem Memory.read_write (m : Memory) (j : Nat) (v : Byte) (k : Nat) :
    Memory.read (Memory.write m j v) k = if k = j then v else Memory.read m k := by
  unfold Memory.write
  split
  · rename_i hv
    simp [Memory.read_erase, hv]
  · rw [Memory.read_insert v (Memory.erase_not_listed m j), Memory.read_erase]
    split <;> rfl

/-! ### The canonical form is kept -/

theorem Memory.wf_filter {m : Memory} (h : Memory.wf m) (P : Host.Cell → Bool) : Memory.wf (m.filter P) :=
  ⟨h.1.filter P, fun c hc => h.2 c (List.mem_filter.mp hc).1⟩

theorem Memory.mem_insert {m : Memory} {j : Nat} {v : Byte} {c : Host.Cell} :
    c ∈ Memory.insert m j v ↔ c = (j, v) ∨ c ∈ m := by
  induction m with
  | nil => simp [Memory.insert]
  | cons d m ih =>
    obtain ⟨a, w⟩ := d
    simp only [Memory.insert]
    split
    · simp
    · simp only [List.mem_cons, ih]
      tauto

theorem Memory.wf_insert {m : Memory} {j : Nat} {v : Byte} (h : Memory.wf m) (hj : ∀ c ∈ m, c.1 ≠ j) (hv : v ≠ 0) :
    Memory.wf (Memory.insert m j v) := by
  refine ⟨?_, fun c hc => ?_⟩
  · have hp := h.1
    clear h
    induction m with
    | nil => simp [Memory.insert]
    | cons d m ih =>
      obtain ⟨a, w⟩ := d
      simp only [List.mem_cons, forall_eq_or_imp] at hj
      rw [List.pairwise_cons] at hp
      simp only [Memory.insert]
      split
      · rename_i hlt
        refine List.pairwise_cons.mpr ⟨?_, List.pairwise_cons.mpr hp⟩
        intro c hc
        rcases List.mem_cons.mp hc with rfl | hc
        · exact hlt
        · exact lt_trans hlt (hp.1 c hc)
      · refine List.pairwise_cons.mpr ⟨?_, ih hj.2 hp.2⟩
        intro c hc
        rcases Memory.mem_insert.mp hc with rfl | hc
        · have := hj.1
          simp only at this ⊢
          omega
        · exact hp.1 c hc
  · rcases Memory.mem_insert.mp hc with rfl | hc
    · exact hv
    · exact h.2 c hc

/-- Writing a byte keeps the canonical form. -/
theorem Memory.wf_write {m : Memory} (h : Memory.wf m) (j : Nat) (v : Byte) : Memory.wf (Memory.write m j v) := by
  unfold Memory.write
  split
  · exact Memory.wf_filter h _
  · rename_i hv
    exact Memory.wf_insert (Memory.wf_filter h _) (Memory.erase_not_listed m j) hv

/-- Clearing a range keeps the canonical form. -/
theorem Memory.wf_clear {m : Memory} (h : Memory.wf m) (lo hi : Nat) : Memory.wf (Memory.clear m lo hi) :=
  Memory.wf_filter h _

/-- The cells after a write: the written one and old ones. -/
theorem Memory.mem_write {m : Memory} {j : Nat} {v : Byte} {c : Host.Cell} (h : c ∈ Memory.write m j v) :
    c = (j, v) ∨ c ∈ m := by
  unfold Memory.write at h
  split at h
  · exact .inr (List.mem_filter.mp h).1
  · rcases Memory.mem_insert.mp h with h | h
    · exact .inl h
    · exact .inr (List.mem_filter.mp h).1

/-! ### Equal reads make equal memories -/

theorem Memory.read_of_listed {m : Memory} (h : Memory.wf m) {c : Host.Cell} (hc : c ∈ m) :
    Memory.read m c.1 = c.2 := by
  obtain ⟨hp, -⟩ := h
  induction m with
  | nil => cases hc
  | cons d m ih =>
    obtain ⟨a, w⟩ := d
    rw [List.pairwise_cons] at hp
    rcases List.mem_cons.mp hc with rfl | hc
    · simp [Memory.read]
    · have := hp.1 c hc
      simp only at this
      simp [Memory.read, this.ne, ih hc hp.2]

/-- Memories in canonical form that read alike everywhere are the same data. -/
theorem Memory.eq_of_read_eq {m m' : Memory} (h : Memory.wf m) (h' : Memory.wf m')
    (hr : ∀ k, Memory.read m k = Memory.read m' k) : m = m' := by
  have key : ∀ {m m' : Memory}, Memory.wf m → Memory.wf m' → (∀ k, Memory.read m k = Memory.read m' k) →
      ∀ c ∈ m, c ∈ m' := by
    intro m m' h h' hr c hc
    by_contra hn
    have h1 := Memory.read_of_listed h hc
    by_cases hl : ∃ d ∈ m', d.1 = c.1
    · obtain ⟨d, hd, hdc⟩ := hl
      have h2 := Memory.read_of_listed h' hd
      rw [hdc, ← hr, h1] at h2
      exact hn (by rwa [show c = d from Prod.ext hdc.symm h2])
    · have h2 := Memory.read_of_not_listed (m := m') (k := c.1) fun d hd hdc => hl ⟨d, hd, hdc⟩
      rw [← hr, h1] at h2
      exact h.2 c hc h2
  refine List.Perm.eq_of_pairwise (le := fun x y : Host.Cell => x.1 < y.1) ?_ h.1 h'.1 ?_
  · intro a b _ _ hab hba
    omega
  · rw [List.perm_ext_iff_of_nodup]
    · exact fun c => ⟨key h h' hr c, key h' h (fun k => (hr k).symm) c⟩
    · exact h.1.imp fun hlt he => by rw [he] at hlt; exact lt_irrefl _ hlt
    · exact h'.1.imp fun hlt he => by rw [he] at hlt; exact lt_irrefl _ hlt

end Sys2Proof.Machine
end

