-- ==== Sys2Proof/Laws/Bits.lean ====
section
/-!
SUPPORT. Bytes and bits of the bitmaps: the masks bit by bit, what a stored byte changes, and `Marks`, the
relation "these positions of the bound bitmap are set as well and nothing else changes".
-/
namespace Sys2Proof.Machine

/-! ### The masks, bit by bit -/

/-- A bit offset in [0, 7] has a mask: that of the positions with this offset (41_mask.md R92). -/
theorem offsetMask_some {o : Nat} (h : o < 8) : offsetMask o = some (positionMask o) := by
  rw [offsetMask, if_pos h, positionMask, Nat.mod_eq_of_lt h]

/-- An index above 7 has none (93_implementation_defined.md U2). -/
theorem offsetMask_none {o : Nat} (h : 8 ≤ o) : offsetMask o = none := if_neg (by omega)

theorem maskAt_ok {o : Nat} (h : o < 8) : maskAt o = .ok (positionMask o) := by
  rw [maskAt, offsetMask_some h]
  rfl

theorem maskAt_error {o : Nat} (h : 8 ≤ o) : maskAt o = .error (.noBitMask o) := by
  rw [maskAt, offsetMask_none h]
  rfl

theorem positionMask_mod (p : Nat) : positionMask (p % 8) = positionMask p := by
  rw [positionMask, Nat.mod_mod, positionMask]

theorem positionMask_eq {o : Nat} (h : o < 8) : positionMask o = BitVec.twoPow 8 (7 - o) := by
  interval_cases o <;> decide

/-- A byte tested under the mask of a position: bit offset `o` is bit `7 - o` (00_scope.md R9). -/
theorem anyUnder_positionMask (b : Byte) (p : Nat) : anyUnder b (positionMask p) = b.getLsbD (7 - p % 8) := by
  have h : p % 8 < 8 := Nat.mod_lt _ (by decide)
  rw [anyUnder, ← positionMask_mod, positionMask_eq h, BitVec.and_twoPow]
  generalize p % 8 = o at h
  have : BitVec.twoPow 8 (7 - o) ≠ 0#8 := by interval_cases o <;> decide
  cases b.getLsbD (7 - o) <;> simp [this]

theorem positionMask_bit {o j : Nat} (ho : o < 8) (hj : j < 8) :
    (positionMask o).getLsbD (7 - j) = decide (j = o) := by
  interval_cases o <;> interval_cases j <;> decide

theorem endMask_bit {t j : Nat} (ht : t < 8) (hj : j < 8) :
    (endMask (BitVec.ofNat 8 t)).getLsbD (7 - j) = decide (j < t) := by
  interval_cases t <;> interval_cases j <;> decide

theorem ones_bit {j : Nat} : (0xFF#8).getLsbD (7 - j) = true := by
  have : 7 - j < 8 := by omega
  generalize 7 - j = k at this
  interval_cases k <;> decide

/-- Bytes that agree at every bit offset are equal. -/
theorem byte_ext {b c : Byte} (h : ∀ j < 8, b.getLsbD (7 - j) = c.getLsbD (7 - j)) : b = c := by
  apply BitVec.eq_of_getLsbD_eq
  intro i hi
  have := h (7 - i) (by omega)
  rwa [show 7 - (7 - i) = i by omega] at this

/-- A byte is nonzero exactly when some bit of it is set. -/
theorem byte_ne_zero_iff (b : Byte) : b ≠ 0#8 ↔ ∃ j < 8, b.getLsbD (7 - j) = true := by
  constructor
  · intro h
    by_contra hn
    push Not at hn
    exact h (byte_ext fun j hj => by simpa using hn j hj)
  · rintro ⟨j, -, hj⟩ rfl
    simp at hj

theorem anyUnder_iff (b m : Byte) :
    anyUnder b m = true ↔ ∃ j < 8, b.getLsbD (7 - j) = true ∧ m.getLsbD (7 - j) = true := by
  rw [anyUnder, bne_iff_ne, byte_ne_zero_iff]
  simp

/-! ### Positions -/

/-- The bit of a position, read from its byte (20_memory.md R41). -/
theorem State.bitOf_eq (s : State) (seg : Half) (p : Nat) :
    s.bitOf seg p = (s.byteOf seg (p / 8)).getLsbD (7 - p % 8) :=
  anyUnder_positionMask _ p

/-- Bitmaps that agree at every position agree at every byte. -/
theorem State.byteOf_eq_of_bitOf_eq {s t : State} {seg : Half} {idx : Nat}
    (h : ∀ j < 8, s.bitOf seg (8 * idx + j) = t.bitOf seg (8 * idx + j)) : s.byteOf seg idx = t.byteOf seg idx := by
  apply byte_ext
  intro j hj
  have := h j hj
  rw [State.bitOf_eq, State.bitOf_eq] at this
  rwa [show (8 * idx + j) / 8 = idx by omega, show (8 * idx + j) % 8 = j by omega] at this

theorem mapAddr_inj {seg seg' : Half} {i j : Nat} (hi : i < 8192) (hj : j < 8192) :
    mapAddr seg i = mapAddr seg' j ↔ seg = seg' ∧ i = j := by
  simp only [mapAddr, Config.segmentBytes]
  constructor
  · intro h
    have : seg.toNat = seg'.toNat ∧ i = j := by omega
    exact ⟨BitVec.eq_of_toNat_eq this.1, this.2⟩
  · rintro ⟨rfl, rfl⟩
    rfl

/-- A stored byte is read back, and every other byte of every bitmap is as before. -/
theorem State.byteOf_setByte (s : State) {idx k : Nat} (v : Byte) (seg : Half) (hi : idx < 8192) (hk : k < 8192) :
    (s.setByte idx v).byteOf seg k = if seg = s.bound ∧ k = idx then v else s.byteOf seg k := by
  simp only [State.byteOf, State.setByte_mem, Memory.read_write, mapAddr_inj hk hi]

/-- Storing a byte of the bound bitmap, one that `RESET` has zeroed, keeps every listed byte in such a bitmap. -/
theorem State.setByte_cells {s : State} {idx : Nat} (v : Byte) (hi : idx < 8192) (hb : s.bound ∈ s.zeroed)
    (h : s.cellsInZeroed) : (s.setByte idx v).cellsInZeroed := by
  intro c hc
  rcases Memory.mem_write hc with rfl | hc
  · have hs := s.bound.isLt
    have hdiv : mapAddr s.bound idx / 8192 = s.bound.toNat := by
      simp only [mapAddr, Config.segmentBytes]
      omega
    refine ⟨by simp only [mapAddr, Config.segmentBytes, Config.segmentCount]; omega, ?_⟩
    simp only [State.setByte_zeroed, hdiv]
    simpa using hb
  · exact h c hc

/-! ### Setting positions -/

/-- `t` is `s` with the positions in `P` of the bound bitmap set as well: no other position of any bitmap and nothing
else of the state differs, and the invariant is kept. -/
structure Marks (P : Nat → Prop) (s t : State) : Prop where
  only_mem : t = s.withMem t.mem
  beyond : ∀ a, 536870912 ≤ a → Memory.read t.mem a = Memory.read s.mem a
  bits : ∀ seg, ∀ p < 65536, (t.bitOf seg p = true ↔ s.bitOf seg p = true ∨ (seg = s.bound ∧ P p))
  wf : Memory.wf s.mem → Memory.wf t.mem
  cells : s.bound ∈ s.zeroed → s.cellsInZeroed → t.cellsInZeroed

theorem Marks.bound {P : Nat → Prop} {s t : State} (h : Marks P s t) : t.bound = s.bound := by rw [h.only_mem]; rfl
theorem Marks.zeroed {P : Nat → Prop} {s t : State} (h : Marks P s t) : t.zeroed = s.zeroed := by rw [h.only_mem]; rfl

/-- The invariant is kept. -/
theorem Marks.inv {P : Nat → Prop} {s t : State} (h : Marks P s t) (hb : s.bound ∈ s.zeroed) (hi : s.Inv) : t.Inv :=
  ⟨h.wf hi.1, h.cells hb hi.2.1, h.zeroed ▸ hi.2.2⟩

theorem Marks.none {P : Nat → Prop} (s : State) (h : ∀ p < 65536, ¬P p) : Marks P s s :=
  ⟨rfl, fun _ _ => rfl, fun seg p hp => by simp [h p hp], id, fun _ h => h⟩

theorem Marks.trans {P Q : Nat → Prop} {s t u : State} (h : Marks P s t) (k : Marks Q t u) :
    Marks (fun p => P p ∨ Q p) s u := by
  refine ⟨?_, fun a ha => (k.beyond a ha).trans (h.beyond a ha), fun seg p hp => ?_, k.wf ∘ h.wf, fun hb hi => ?_⟩
  · have := k.only_mem
    rw [h.only_mem] at this
    simpa using this
  · rw [k.bits seg p hp, h.bits seg p hp, h.bound]
    tauto
  · exact k.cells (by rw [h.bound, h.zeroed]; exact hb) (h.cells hb hi)

theorem Marks.congr {P Q : Nat → Prop} {s t : State} (h : Marks P s t) (hpq : ∀ p < 65536, (P p ↔ Q p)) :
    Marks Q s t :=
  ⟨h.only_mem, h.beyond, fun seg p hp => by rw [h.bits seg p hp, hpq p hp], h.wf, h.cells⟩

theorem Marks.byteOf {P : Nat → Prop} {s t : State} (h : Marks P s t) {seg : Half} {idx : Nat} (hi : idx < 8192)
    (hn : seg = s.bound → ∀ j < 8, ¬P (8 * idx + j)) : t.byteOf seg idx = s.byteOf seg idx := by
  apply State.byteOf_eq_of_bitOf_eq
  intro j hj
  rw [Bool.eq_iff_iff, h.bits seg _ (by omega)]
  exact ⟨fun h' => h'.elim id fun h' => absurd h'.2 (hn h'.1 j hj), .inl⟩

/-- The positions a stored byte sets, when it holds every bit of the old one. -/
theorem Marks.setByte (s : State) {idx : Nat} (m : Byte) (hi : idx < 8192) :
    Marks (fun p => p / 8 = idx ∧ m.getLsbD (7 - p % 8) = true) s (s.setByte idx (s.mapByte idx ||| m)) := by
  refine ⟨rfl, fun a ha => ?_, fun seg p hp => ?_, fun h => Memory.wf_write h _ _, State.setByte_cells _ hi⟩
  · have := s.bound.isLt
    rw [State.setByte_mem, Memory.read_write, if_neg]
    simp only [mapAddr, Config.segmentBytes]
    omega
  rw [State.bitOf_eq, State.bitOf_eq, State.byteOf_setByte s _ seg hi (by omega)]
  split
  · rename_i h
    simp [h.1, h.2, State.mapByte]
  · rename_i h
    constructor
    · exact .inl
    · rintro (h' | ⟨h1, h2, -⟩)
      · exact h'
      · exact absurd ⟨h1, h2⟩ h

end Sys2Proof.Machine
end

