-- ==== Sys2Proof/Laws/Decode.lean ====
section
/-!
SUPPORT. The fields of a command word put together from fields (30_encoding.md R60).
-/
namespace Sys2Proof

theorem wordOf_bit (op : BitVec 3) (a b : Half) (k : Nat) :
    (wordOf op a b).getLsbD k =
      if k < 16 then b.getLsbD k else if k < 32 then a.getLsbD (k - 16) else op.getLsbD (k - 32) := by
  have h1 : (wordOf op a b).getLsbD k = if k < 16 then b.getLsbD k else (op ++ a).getLsbD (k - 16) :=
    BitVec.getLsbD_append
  have h2 : (op ++ a).getLsbD (k - 16) =
      if k - 16 < 16 then a.getLsbD (k - 16) else op.getLsbD (k - 16 - 16) := BitVec.getLsbD_append
  rw [h1, h2]
  split
  · rfl
  · by_cases hk : k < 32
    · rw [if_pos (by omega), if_pos hk]
    · rw [if_neg (by omega), if_neg hk, show k - 16 - 16 = k - 32 by omega]

/-- The three fields of a word are the ones it was put together from. -/
theorem fieldsOf_wordOf (op : BitVec 3) (a b : Half) : fieldsOf (wordOf op a b) = ⟨op, a, b⟩ := by
  simp only [fieldsOf, CommandFields.mk.injEq]
  refine ⟨?_, ?_, ?_⟩ <;> apply BitVec.eq_of_getLsbD_eq <;> intro k hk <;>
    rw [BitVec.getLsbD_extractLsb', wordOf_bit]
  · rw [if_neg (by omega), if_neg (by omega)]
    simp [hk]
  · rw [if_neg (by omega), if_pos (by omega)]
    simp [hk]
  · rw [if_pos (by omega)]
    simp [hk]

/-- Every word is put together from its three fields. -/
theorem wordOf_fieldsOf (cw : CommandWord) : wordOf (fieldsOf cw).op (fieldsOf cw).a (fieldsOf cw).b = cw := by
  apply BitVec.eq_of_getLsbD_eq
  intro k hk
  rw [wordOf_bit]
  simp only [fieldsOf, BitVec.getLsbD_extractLsb']
  split
  · simp [*]
  · split
    · rw [decide_eq_true (by omega), Bool.true_and, show 16 + (k - 16) = k by omega]
    · rw [decide_eq_true (by omega), Bool.true_and, show 32 + (k - 32) = k by omega]

end Sys2Proof
end

