-- ==== Sys2Proof/Laws/Engine.lean ====
section
/-!
SUPPORT. The pad-count triple, and one lemma for each part of the two engines that says all it does, for a buffer
of any length `cap`.
-/
namespace Sys2Proof.Machine

/-! ### The pad-count triple -/

/-- What the engines need of the triple: its sum, its ranges, and that whatever follows the leading run starts on a byte
boundary (40_padcount.md R81 to R83). -/
theorem padCounts_shape (start len : Nat) :
    let c := padCounts start len
    c.leading + c.full * 8 + c.trailing = len ∧ c.trailing < 8 ∧ start % 8 + c.leading ≤ 8 ∧ c.leading < 8 ∧
      (c.full > 0 ∨ c.trailing > 0 → (c.leading = 0 ∧ start % 8 = 0) ∨ (c.leading > 0 ∧ start % 8 + c.leading = 8)) ∧
      (c.leading = 0 → c.full = 0 → c.trailing = 0) := by
  simp only [padCounts, startAlign]
  omega

theorem wraps_iff {start len : Nat} : wraps start len = true ↔ 65536 < start + len := decide_eq_true_iff

theorem remainder_eq (start len : Nat) : remainder start len = start + len - 65536 := rfl

/-- The working length ends at the segment end (42_fill.md R101, 43_query.md R125). -/
theorem workingLen_eq {start len : Nat} (h : start ≤ 65536) : workingLen start len = min len (65536 - start) := by
  unfold workingLen
  split <;> rename_i hw <;> rw [wraps_iff] at hw
  · rw [remainder_eq]
    omega
  · omega

/-! ### One access -/

theorem memRead_ok {cap idx : Nat} (s : State) (h : idx < cap) : memRead cap idx s = .ok (s.mapByte idx) :=
  if_pos h

theorem memRead_error {cap idx : Nat} (s : State) (h : cap ≤ idx) : memRead cap idx s = .error (.outside idx s) :=
  if_neg (by omega)

theorem memWrite_ok {cap idx : Nat} (v : Byte) (s : State) (h : idx < cap) :
    memWrite cap idx v s = .ok (s.setByte idx v) :=
  if_pos h

theorem memWrite_error {cap idx : Nat} (v : Byte) (s : State) (h : cap ≤ idx) :
    memWrite cap idx v s = .error (.outside idx s) :=
  if_neg (by omega)

theorem orIn_ok {cap idx : Nat} (m : Byte) (s : State) (h : idx < cap) :
    orIn cap idx m s = .ok (s.setByte idx (s.mapByte idx ||| m)) := by
  simp [orIn, memRead_ok s h, memWrite_ok _ s h, bind, Except.bind]

theorem orIn_error {cap idx : Nat} (m : Byte) (s : State) (h : cap ≤ idx) : orIn cap idx m s = .error (.outside idx s) := by
  simp [orIn, memRead_error s h, bind, Except.bind]

/-- Storing 0xFF leaves the byte that OR-ing 0xFF in would leave (20_memory.md R44). -/
theorem setByte_ones (s : State) (idx : Nat) :
    s.setByte idx 0xFF#8 = s.setByte idx (s.mapByte idx ||| 0xFF#8) := by
  rw [show s.mapByte idx ||| 0xFF#8 = 0xFF#8 from BitVec.or_allOnes]

/-! ### The parts of FILL -/

theorem fillLeading_ok {cap target : Nat} (hc : target < cap) (ht : target < 8192) (k : Nat) :
    ∀ (off : Nat) (s : State), off + k ≤ 8 → ∃ t, fillLeading cap target off k s = .ok t ∧
      Marks (fun p => p / 8 = target ∧ off ≤ p % 8 ∧ p % 8 < off + k) s t := by
  induction k with
  | zero =>
    intro off s _
    exact ⟨s, rfl, Marks.none s fun p _ => by omega⟩
  | succ k ih =>
    intro off s h
    obtain ⟨t, he, hm⟩ := ih (off + 1) (s.setByte target (s.mapByte target ||| positionMask off)) (by omega)
    refine ⟨t, by simpa [fillLeading, maskAt_ok (show off < 8 by omega), orIn_ok _ _ hc, bind, Except.bind] using he, ?_⟩
    refine ((Marks.setByte s (positionMask off) ht).trans hm).congr fun p _ => ?_
    rw [positionMask_bit (by omega) (Nat.mod_lt _ (by decide)), decide_eq_true_eq]
    omega

theorem fillLeading_error {cap target k off : Nat} (hc : cap ≤ target) (hk : 0 < k) (ho : off < 8) (s : State) :
    fillLeading cap target off k s = .error (.outside target s) := by
  obtain ⟨k, rfl⟩ := Nat.exists_eq_succ_of_ne_zero hk.ne'
  simp [fillLeading, maskAt_ok ho, orIn_error _ _ hc, bind, Except.bind]

theorem fillFull_step {cap idx : Nat} (hc : idx < cap) (k : Nat) (s : State) :
    fillFull cap idx (k + 1) s = fillFull cap (idx + 1) k (s.setByte idx 0xFF#8) := by
  simp [fillFull, memWrite_ok _ s hc, bind, Except.bind]

theorem Marks.ones (s : State) {idx : Nat} (hi : idx < 8192) :
    Marks (fun p => p / 8 = idx) s (s.setByte idx 0xFF#8) := by
  rw [setByte_ones]
  exact (Marks.setByte s 0xFF#8 hi).congr fun p _ => by simp [ones_bit]

theorem fillFull_ok {cap : Nat} (k : Nat) : ∀ (idx : Nat) (s : State), idx + k ≤ cap → idx + k ≤ 8192 →
    ∃ t, fillFull cap idx k s = .ok t ∧ Marks (fun p => idx ≤ p / 8 ∧ p / 8 < idx + k) s t := by
  induction k with
  | zero =>
    intro idx s _ _
    exact ⟨s, rfl, Marks.none s fun p _ => by omega⟩
  | succ k ih =>
    intro idx s hc ht
    obtain ⟨t, he, hm⟩ := ih (idx + 1) (s.setByte idx 0xFF#8) (by omega) (by omega)
    refine ⟨t, by rw [fillFull_step (by omega), he], ?_⟩
    exact ((Marks.ones s (by omega)).trans hm).congr fun p _ => by omega

theorem fillFull_error {cap : Nat} (k : Nat) : ∀ (idx : Nat) (s : State), idx ≤ cap → cap < idx + k → cap ≤ 8192 →
    ∃ t, fillFull cap idx k s = .error (.outside cap t) ∧ Marks (fun p => idx ≤ p / 8 ∧ p / 8 < cap) s t := by
  induction k with
  | zero => intro idx s h1 h2; omega
  | succ k ih =>
    intro idx s h1 h2 h3
    rcases h1.eq_or_lt with rfl | h1
    · refine ⟨s, ?_, Marks.none s fun p _ => by omega⟩
      simp [fillFull, memWrite_error _ s le_rfl, bind, Except.bind]
    · obtain ⟨t, he, hm⟩ := ih (idx + 1) (s.setByte idx 0xFF#8) (by omega) (by omega) h3
      refine ⟨t, by rw [fillFull_step h1, he], ?_⟩
      exact ((Marks.ones s (by omega)).trans hm).congr fun p _ => by omega

theorem fillTrailing_ok {cap idx trailing : Nat} (hc : trailing > 0 → idx < cap) (hi : trailing > 0 → idx < 8192)
    (ht : trailing < 8) (s : State) : ∃ t, fillTrailing cap idx trailing s = .ok t ∧
      Marks (fun p => p / 8 = idx ∧ p % 8 < trailing) s t := by
  unfold fillTrailing
  split
  · rename_i h
    refine ⟨_, orIn_ok _ _ (hc h), (Marks.setByte s _ (hi h)).congr fun p _ => ?_⟩
    rw [endMask_bit ht (Nat.mod_lt _ (by decide)), decide_eq_true_eq]
  · exact ⟨s, rfl, Marks.none s fun p _ => by omega⟩

theorem fillTrailing_error {cap idx trailing : Nat} (hc : cap ≤ idx) (ht : 0 < trailing) (s : State) :
    fillTrailing cap idx trailing s = .error (.outside idx s) := by
  simp [fillTrailing, ht, orIn_error _ _ hc]

/-! ### One pass of FILL -/

/-- A pass whose last byte is in the buffer sets exactly the positions of its range (42_fill.md R100 to R105). -/
theorem fillPass_ok {cap start len : Nat} (s : State) (h : start + len ≤ 65536)
    (hc : len = 0 ∨ (start + len - 1) / 8 < cap) :
    ∃ t, fillPass cap start len s = .ok t ∧ Marks (fun p => start ≤ p ∧ p < start + len) s t := by
  obtain ⟨h1, h2, h3, h4, h5, h6⟩ := padCounts_shape start len
  unfold fillPass
  simp only [targetByte, bitOffset, fullBase, trailIndex]
  generalize padCounts start len = c at *
  obtain ⟨L, F, T⟩ := c
  simp only at *
  have hlead : ∃ t, fillLeading cap (start / 8) (start % 8) L s = .ok t ∧
      Marks (fun p => p / 8 = start / 8 ∧ start % 8 ≤ p % 8 ∧ p % 8 < start % 8 + L) s t := by
    rcases Nat.eq_zero_or_pos L with rfl | hL
    · exact ⟨s, rfl, Marks.none s fun p _ => by omega⟩
    · exact fillLeading_ok (by omega) (by omega) L _ s h3
  obtain ⟨t1, e1, m1⟩ := hlead
  have hfull : ∃ t, fillFull cap (start / 8 + if L > 0 then 1 else 0) F t1 = .ok t ∧
      Marks (fun p => (start / 8 + if L > 0 then 1 else 0) ≤ p / 8 ∧
        p / 8 < (start / 8 + if L > 0 then 1 else 0) + F) t1 t := by
    rcases Nat.eq_zero_or_pos F with rfl | hF
    · exact ⟨t1, rfl, Marks.none t1 fun p _ => by omega⟩
    · refine fillFull_ok F _ t1 ?_ ?_ <;> split <;> omega
  obtain ⟨t2, e2, m2⟩ := hfull
  obtain ⟨t3, e3, m3⟩ := fillTrailing_ok (cap := cap) (idx := (start / 8 + if L > 0 then 1 else 0) + F) (trailing := T)
    (by intro hT; split <;> omega) (by intro hT; split <;> omega) h2 t2
  refine ⟨t3, by simp [e1, e2, e3, bind, Except.bind], ?_⟩
  refine ((m1.trans m2).trans m3).congr fun p _ => ?_
  split <;> omega

/-- A pass that leaves the buffer faults at the first byte of its range that is not in it, and the positions before that
byte are set (42_fill.md R112, 60_exceptions.md R140). -/
theorem fillPass_error {cap start len : Nat} (s : State) (h : start + len ≤ 65536) (h0 : 0 < len)
    (hc : cap ≤ (start + len - 1) / 8) :
    ∃ t, fillPass cap start len s = .error (.outside (max cap (start / 8)) t) ∧
      Marks (fun p => start ≤ p ∧ p < start + len ∧ p / 8 < cap) s t := by
  obtain ⟨h1, h2, h3, h4, h5, h6⟩ := padCounts_shape start len
  unfold fillPass
  simp only [targetByte, bitOffset, fullBase, trailIndex]
  generalize padCounts start len = c at *
  obtain ⟨L, F, T⟩ := c
  simp only at *
  rcases Nat.eq_zero_or_pos L with rfl | hL
  · simp only [fillLeading, bind, Except.bind, gt_iff_lt, lt_irrefl, if_false, Nat.add_zero]
    by_cases hF : start / 8 + F ≤ cap
    · obtain ⟨t, e, m⟩ := fillFull_ok (cap := cap) F (start / 8) s hF (by omega)
      rw [e]
      simp only
      rw [fillTrailing_error (by omega) (by omega)]
      refine ⟨t, ?_, m.congr fun p _ => by omega⟩
      rw [show start / 8 + F = max cap (start / 8) by omega]
    · by_cases hs : start / 8 ≤ cap
      · obtain ⟨t, e, m⟩ := fillFull_error (cap := cap) F (start / 8) s hs (by omega) (by omega)
        rw [e]
        refine ⟨t, ?_, m.congr fun p _ => by omega⟩
        rw [show max cap (start / 8) = cap by omega]
      · obtain ⟨F, rfl⟩ := Nat.exists_eq_succ_of_ne_zero (show F ≠ 0 by omega)
        refine ⟨s, ?_, Marks.none s fun p _ => by omega⟩
        simp [fillFull, memWrite_error _ s (show cap ≤ start / 8 by omega), bind, Except.bind]
        omega
  · by_cases hs : cap ≤ start / 8
    · rw [fillLeading_error hs hL (Nat.mod_lt _ (by decide))]
      refine ⟨s, ?_, Marks.none s fun p _ => by omega⟩
      simp [bind, Except.bind]
      omega
    · obtain ⟨t1, e1, m1⟩ := fillLeading_ok (cap := cap) (target := start / 8) (by omega) (by omega) L (start % 8) s h3
      simp only [e1, bind, Except.bind, gt_iff_lt, hL, if_true]
      by_cases hF : start / 8 + 1 + F ≤ cap
      · obtain ⟨t, e, m⟩ := fillFull_ok (cap := cap) F (start / 8 + 1) t1 hF (by omega)
        rw [e]
        simp only
        rw [fillTrailing_error (by omega) (by omega)]
        refine ⟨t, ?_, (m1.trans m).congr fun p _ => by omega⟩
        rw [show start / 8 + 1 + F = max cap (start / 8) by omega]
      · obtain ⟨t, e, m⟩ := fillFull_error (cap := cap) F (start / 8 + 1) t1 (by omega) (by omega) (by omega)
        rw [e]
        refine ⟨t, ?_, (m1.trans m).congr fun p _ => by omega⟩
        rw [show max cap (start / 8) = cap by omega]

/-- A wrapping FILL is two passes (42_fill.md R101). -/
theorem fillRange_wrapping {start len : Nat} (cap : Nat) (s : State) (hs : start ≤ 65536) (h : 65536 < start + len) :
    fillRange cap start len s =
      (fillPass cap start (65536 - start) s).bind (fillPass cap 0 (start + len - 65536)) := by
  rw [fillRange, if_pos (wraps_iff.mpr h), workingLen_eq hs, remainder_eq,
    show min len (65536 - start) = 65536 - start by omega]
  rfl

/-- Any other FILL is one pass (42_fill.md R101). -/
theorem fillRange_not_wrapping {start len : Nat} (cap : Nat) (s : State) (h : start + len ≤ 65536) :
    fillRange cap start len s = fillPass cap start len s :=
  if_neg (by rw [wraps_iff]; omega)

/-- FILL on the whole bitmap completes, and sets the positions of its range up to the segment end and of its wrapped
tail (42_fill.md R101). -/
theorem fillRange_ok {start len : Nat} (s : State) (hs : start < 65536) (hl : len < 65536) :
    ∃ t, fillRange 8192 start len s = .ok t ∧
      Marks (fun p => (start ≤ p ∧ p < start + len) ∨ p + 65536 < start + len) s t := by
  rcases Nat.lt_or_ge 65536 (start + len) with hw | hw
  · obtain ⟨t, e, m⟩ := fillPass_ok (cap := 8192) s (show start + (65536 - start) ≤ 65536 by omega) (by omega)
    obtain ⟨u, e', m'⟩ := fillPass_ok (cap := 8192) (start := 0) (len := start + len - 65536) t (by omega) (by omega)
    refine ⟨u, ?_, (m.trans m').congr fun p _ => by omega⟩
    rw [fillRange_wrapping 8192 s hs.le hw, e, Except.bind, e']
  · obtain ⟨t, e, m⟩ := fillPass_ok (cap := 8192) s hw (by omega)
    exact ⟨t, by rw [fillRange_not_wrapping 8192 s hw, e], m.congr fun p _ => by omega⟩

/-! ### The parts of QUERY -/

theorem queryLeading_ok {cap target : Nat} (hc : target < cap) (s : State) (k : Nat) : ∀ off, off + k ≤ 8 →
    ∃ h, queryLeading cap target s off k = .ok h ∧
      (h = true ↔ s.anySet fun p => 8 * target + off ≤ p ∧ p < 8 * target + off + k) := by
  induction k with
  | zero =>
    intro off _
    exact ⟨false, rfl, by simp [State.anySet]⟩
  | succ k ih =>
    intro off hk
    have hb : anyUnder (s.mapByte target) (positionMask off) = s.bit (8 * target + off) := by
      rw [State.bit, State.bitOf, show (8 * target + off) / 8 = target by omega,
        ← positionMask_mod (8 * target + off), show (8 * target + off) % 8 = off by omega]
      rfl
    obtain ⟨h, e, hh⟩ := ih (off + 1) (by omega)
    simp only [queryLeading, maskAt_ok (show off < 8 by omega), memRead_ok s hc, bind, Except.bind, hb]
    split
    · rename_i hset
      exact ⟨true, rfl, by simpa using ⟨8 * target + off, by omega, hset⟩⟩
    · rename_i hset
      refine ⟨h, e, hh.trans ⟨?_, ?_⟩⟩
      · rintro ⟨p, h1, h3⟩
        exact ⟨p, by omega, h3⟩
      · rintro ⟨p, h1, h3⟩
        have hne : p ≠ 8 * target + off := fun hp => hset (hp ▸ h3)
        exact ⟨p, by omega, h3⟩

theorem queryLeading_error {cap target k off : Nat} (hc : cap ≤ target) (hk : 0 < k) (ho : off < 8) (s : State) :
    queryLeading cap target s off k = .error (.outside target s) := by
  obtain ⟨k, rfl⟩ := Nat.exists_eq_succ_of_ne_zero hk.ne'
  simp [queryLeading, maskAt_ok ho, memRead_error s hc, bind, Except.bind]

/-- A nonzero byte holds a set position (43_query.md R123). -/
theorem mapByte_ne_zero_iff (s : State) (idx : Nat) :
    s.mapByte idx ≠ 0#8 ↔ ∃ j < 8, s.bit (8 * idx + j) = true := by
  rw [byte_ne_zero_iff]
  refine exists_congr fun j => and_congr_right fun hj => ?_
  rw [State.bit, State.bitOf_eq, show (8 * idx + j) / 8 = idx by omega, show (8 * idx + j) % 8 = j by omega]
  rfl

/-- The scan of full bytes: the answer if a byte in the buffer is nonzero or all are in it, else the fault at the first
byte that is not in it (43_query.md R123, R129). -/
theorem queryFull_spec {cap : Nat} (s : State) (k : Nat) : ∀ idx,
    (s.anySet (fun p => idx ≤ p / 8 ∧ p / 8 < idx + k ∧ p / 8 < cap) → queryFull cap s idx k = .ok true) ∧
    (¬s.anySet (fun p => idx ≤ p / 8 ∧ p / 8 < idx + k ∧ p / 8 < cap) →
      queryFull cap s idx k = if idx + k ≤ cap ∨ k = 0 then .ok false else .error (.outside (max cap idx) s)) := by
  induction k with
  | zero =>
    intro idx
    exact ⟨fun ⟨p, h, _⟩ => by omega, fun _ => by simp [queryFull]⟩
  | succ k ih =>
    intro idx
    obtain ⟨i1, i2⟩ := ih (idx + 1)
    by_cases hc : idx < cap
    · simp only [queryFull, memRead_ok s hc, bind, Except.bind, bne_iff_ne]
      by_cases hb : s.mapByte idx ≠ 0#8
      · obtain ⟨j, hj, hset⟩ := (mapByte_ne_zero_iff s idx).mp hb
        refine ⟨fun _ => if_pos hb, fun hn => absurd ⟨8 * idx + j, by omega, hset⟩ hn⟩
      · rw [if_neg hb]
        have hz : ∀ p, p / 8 = idx → s.bit p ≠ true := by
          intro p hp hset
          apply hb
          rw [mapByte_ne_zero_iff]
          exact ⟨p % 8, Nat.mod_lt _ (by decide), by rwa [show 8 * idx + p % 8 = p by omega]⟩
        constructor
        · rintro ⟨p, h1, h4⟩
          have hne : p / 8 ≠ idx := fun h => hz p h h4
          exact i1 ⟨p, by omega, h4⟩
        · intro hn
          rw [i2]
          swap
          · rintro ⟨p, h1, h4⟩
            exact hn ⟨p, by omega, h4⟩
          by_cases hk : idx + (k + 1) ≤ cap
          · rw [if_pos (by omega), if_pos (by omega)]
          · rw [if_neg (by omega), if_neg (by omega), show max cap (idx + 1) = max cap idx by omega]
    · simp only [queryFull, memRead_error s (show cap ≤ idx by omega), bind, Except.bind]
      refine ⟨fun ⟨p, h, _⟩ => by omega, fun _ => ?_⟩
      rw [if_neg (by omega), show max cap idx = idx by omega]

theorem queryTrailing_ok {cap idx trailing : Nat} (hc : trailing > 0 → idx < cap) (ht : trailing < 8) (s : State) :
    ∃ h, queryTrailing cap idx trailing s = .ok h ∧
      (h = true ↔ s.anySet fun p => 8 * idx ≤ p ∧ p < 8 * idx + trailing) := by
  unfold queryTrailing
  split
  · rename_i h
    refine ⟨_, by simp [memRead_ok s (hc h), bind, Except.bind]; rfl, ?_⟩
    rw [anyUnder_iff]
    have key : ∀ j < 8, s.bit (8 * idx + j) = (s.mapByte idx).getLsbD (7 - j) := by
      intro j hj
      rw [State.bit, State.bitOf_eq, show (8 * idx + j) / 8 = idx by omega, show (8 * idx + j) % 8 = j by omega]
      rfl
    constructor
    · rintro ⟨j, hj, h1, h2⟩
      rw [endMask_bit ht hj, decide_eq_true_eq] at h2
      exact ⟨8 * idx + j, by omega, by rw [key j hj, h1]⟩
    · rintro ⟨p, hp, h1⟩
      refine ⟨p - 8 * idx, by omega, ?_, ?_⟩
      · rw [← key _ (by omega), show 8 * idx + (p - 8 * idx) = p by omega, h1]
      · rw [endMask_bit ht (by omega), decide_eq_true_eq]
        omega
  · exact ⟨false, rfl, by simp [State.anySet]; omega⟩

theorem queryTrailing_error {cap idx trailing : Nat} (hc : cap ≤ idx) (ht : 0 < trailing) (s : State) :
    queryTrailing cap idx trailing s = .error (.outside idx s) := by
  simp [queryTrailing, ht, memRead_error s hc, bind, Except.bind]

/-! ### One pass of QUERY -/

/-- The scan of a range: `true` if a position of the range is set in a byte that the buffer has; otherwise `false` if the
buffer has every byte of the range, and the fault at the first byte it has not (43_query.md R120 to R124, R129). -/
theorem queryPass_spec {cap start len : Nat} (s : State) :
    (s.anySet (fun p => start ≤ p ∧ p < start + len ∧ p / 8 < cap) → queryPass cap start len s = .ok true) ∧
    (¬s.anySet (fun p => start ≤ p ∧ p < start + len ∧ p / 8 < cap) →
      queryPass cap start len s =
        if len = 0 ∨ (start + len - 1) / 8 < cap then .ok false else .error (.outside (max cap (start / 8)) s)) := by
  obtain ⟨h1, h2, h3, h4, h5, h6⟩ := padCounts_shape start len
  unfold queryPass
  simp only [targetByte, bitOffset, fullBase, trailIndex]
  generalize padCounts start len = c at *
  obtain ⟨L, F, T⟩ := c
  simp only at *
  -- the leading byte
  have hlead : L > 0 ∧ cap ≤ start / 8 ∧ queryLeading cap (start / 8) s (start % 8) L = .error (.outside (start / 8) s) ∨
      ((L > 0 → start / 8 < cap) ∧ ∃ h, queryLeading cap (start / 8) s (start % 8) L = .ok h ∧
        (h = true ↔ s.anySet fun p => 8 * (start / 8) + start % 8 ≤ p ∧ p < 8 * (start / 8) + start % 8 + L)) := by
    rcases Nat.eq_zero_or_pos L with rfl | hL
    · exact .inr ⟨by omega, false, rfl, by simp [State.anySet]⟩
    · rcases Nat.lt_or_ge (start / 8) cap with hc | hc
      · exact .inr ⟨fun _ => hc, queryLeading_ok hc s L _ h3⟩
      · exact .inl ⟨hL, hc, queryLeading_error hc hL (Nat.mod_lt _ (by decide)) s⟩
  rcases hlead with ⟨hL, hc, he⟩ | ⟨hL, h, he, hh⟩
  · simp only [he, bind, Except.bind]
    refine ⟨?_, fun _ => ?_⟩
    · rintro ⟨p, ⟨p1, p2, p3⟩, -⟩
      omega
    · rw [if_neg (by omega), show max cap (start / 8) = start / 8 by omega]
  · simp only [he, bind, Except.bind]
    by_cases hset : h = true
    · rw [if_pos hset]
      refine ⟨fun _ => rfl, fun hn => absurd ?_ hn⟩
      obtain ⟨p, p1, p2⟩ := hh.mp hset
      exact ⟨p, by omega, p2⟩
    rw [if_neg hset]
    have hnolead : ∀ p, s.bit p = true → start ≤ p → ¬p < start + L := by
      intro p hp p1 p2
      apply hset
      rw [hh]
      exact ⟨p, by omega, hp⟩
    -- the full bytes
    obtain ⟨B, hB⟩ : ∃ B, B = start / 8 + if L > 0 then 1 else 0 := ⟨_, rfl⟩
    rw [← hB]
    have hB' : F > 0 ∨ T > 0 → 8 * B = start + L := by
      intro hft
      rw [hB]
      split <;> omega
    obtain ⟨f1, f2⟩ := queryFull_spec (cap := cap) s F B
    by_cases hfull : s.anySet (fun p => B ≤ p / 8 ∧ p / 8 < B + F ∧ p / 8 < cap)
    · rw [f1 hfull]
      refine ⟨fun _ => rfl, fun hn => absurd ?_ hn⟩
      obtain ⟨p, ⟨p1, p2, p3⟩, p4⟩ := hfull
      exact ⟨p, by omega, p4⟩
    rw [f2 hfull]
    by_cases hF : B + F ≤ cap ∨ F = 0
    · rw [if_pos hF]
      simp only [Bool.false_eq_true, if_false]
      -- the trailing byte
      by_cases hT : T > 0 ∧ cap ≤ B + F
      · rw [queryTrailing_error hT.2 hT.1]
        refine ⟨?_, fun _ => ?_⟩
        · rintro ⟨p, ⟨p1, p2, p3⟩, p4⟩
          have := hnolead p p4 p1
          exact absurd ⟨p, by omega, p4⟩ hfull
        · rw [if_neg (by omega), show B + F = max cap (start / 8) by split at hB <;> omega]
      · obtain ⟨q, qe, qh⟩ := queryTrailing_ok (cap := cap) (idx := B + F) (trailing := T) (by omega) h2 s
        rw [qe]
        have hall : len = 0 ∨ (start + len - 1) / 8 < cap := by split at hB <;> omega
        rw [if_pos hall]
        refine ⟨?_, fun hn => ?_⟩
        · rintro ⟨p, ⟨p1, p2, p3⟩, p4⟩
          have hp1 := hnolead p p4 p1
          have hp2 : ¬(B ≤ p / 8 ∧ p / 8 < B + F) := fun hp => hfull ⟨p, ⟨hp.1, hp.2, p3⟩, p4⟩
          rw [qh.mpr ⟨p, by omega, p4⟩]
        · cases q
          · rfl
          · obtain ⟨p, p1, p2⟩ := qh.mp rfl
            exact absurd ⟨p, by omega, p2⟩ hn
    · rw [if_neg hF]
      simp only
      refine ⟨?_, fun _ => ?_⟩
      · rintro ⟨p, ⟨p1, p2, p3⟩, p4⟩
        have := hnolead p p4 p1
        exact absurd ⟨p, by omega, p4⟩ hfull
      · rw [if_neg (by split at hB <;> omega), show max cap B = max cap (start / 8) by split at hB <;> omega]

end Sys2Proof.Machine
end

