-- ==== Sys2Proof/Laws/PerInstr.lean ====
section
/-!
SUPPORT. Statements about every command as syntax: no command is encoded as a reserved word (30_encoding.md R65).
-/
namespace Sys2Proof.Laws.EncodeWellFormed

/-- The encoding of the command is the word of a command. -/
def Statement (i : Instr) : Prop := (fieldsOf (encode i)).wellFormed = true

theorem padcnt (start len : Half) : Statement (.padcnt start len) := by
  simp [Statement, encode, fieldsOf_wordOf, CommandFields.wellFormed, CommandFields.opAssigned,
    CommandFields.aUsedOrZero, CommandFields.countInLowByte, CommandFields.indexInLowBits]

theorem smask (n : Byte) : Statement (.smask n) := by
  simp [Statement, encode, fieldsOf_wordOf, CommandFields.wellFormed, CommandFields.opAssigned,
    CommandFields.aUsedOrZero, CommandFields.countInLowByte, CommandFields.indexInLowBits]
  apply BitVec.eq_of_getLsbD_eq
  intro k hk
  simp

theorem emask (n : Byte) : Statement (.emask n) := by
  simp [Statement, encode, fieldsOf_wordOf, CommandFields.wellFormed, CommandFields.opAssigned,
    CommandFields.aUsedOrZero, CommandFields.countInLowByte, CommandFields.indexInLowBits]
  apply BitVec.eq_of_getLsbD_eq
  intro k hk
  simp

theorem bmask (j : BitVec 3) : Statement (.bmask j) := by
  simp [Statement, encode, fieldsOf_wordOf, CommandFields.wellFormed, CommandFields.opAssigned,
    CommandFields.aUsedOrZero, CommandFields.countInLowByte, CommandFields.indexInLowBits]
  apply BitVec.eq_of_getLsbD_eq
  intro k hk
  simp

theorem fill (start len : Half) : Statement (.fill start len) := by
  simp [Statement, encode, fieldsOf_wordOf, CommandFields.wellFormed, CommandFields.opAssigned,
    CommandFields.aUsedOrZero, CommandFields.countInLowByte, CommandFields.indexInLowBits]

theorem query (start len : Half) : Statement (.query start len) := by
  simp [Statement, encode, fieldsOf_wordOf, CommandFields.wellFormed, CommandFields.opAssigned,
    CommandFields.aUsedOrZero, CommandFields.countInLowByte, CommandFields.indexInLowBits]

end Sys2Proof.Laws.EncodeWellFormed
end

