-- ==== Sys2Proof/Laws/Step.lean ====
section
/-!
SUPPORT. What a command and a step can do, said once.
-/
namespace Sys2Proof.Machine

/-- A command other than FILL that answers a next state gives a response and changes nothing else. -/
theorem exec_next_of_not_fill {i : Instr} {s t : State} (hi : ∀ start len, i ≠ .fill start len)
    (h : exec i s = .next t) : ∃ r, t = s.respond r := by
  cases i with
  | padcnt start len => exact ⟨_, by simpa [exec, execPadcnt, eq_comm] using h⟩
  | smask n => exact ⟨_, by simpa [exec, execSmask, eq_comm] using h⟩
  | emask n => exact ⟨_, by simpa [exec, execEmask, eq_comm] using h⟩
  | bmask j => exact ⟨_, by simpa [exec, execBmask, eq_comm] using h⟩
  | fill start len => exact absurd rfl (hi start len)
  | query start len =>
    simp only [exec, execQuery, queryRange, workingLen_eq start.isLt.le] at h
    split at h
    · obtain ⟨q1, q2⟩ := queryPass_spec (cap := 8192) (start := start.toNat)
        (len := min len.toNat (65536 - start.toNat)) s
      by_cases hq : s.anySet fun p => start.toNat ≤ p ∧
          p < start.toNat + min len.toNat (65536 - start.toNat) ∧ p / 8 < 8192
      · rw [q1 hq] at h
        exact ⟨_, by simpa [queryOutcome, eq_comm] using h⟩
      · rw [q2 hq, if_pos (by have := start.isLt; omega)] at h
        exact ⟨_, by simpa [queryOutcome, eq_comm] using h⟩
    · cases h

/-- A command that answers a next state sets some positions of the bound bitmap, gives one response and changes nothing
else; a command that touches the bitmap found it zeroed. -/
theorem exec_next {i : Instr} {s t : State} (h : exec i s = .next t) :
    ∃ P u r, Marks P s u ∧ t = u.respond r ∧ (touchesMap i = true → s.mapReady = true) := by
  cases i with
  | fill start len =>
    simp only [exec, execFill] at h
    split at h
    · rename_i hr
      obtain ⟨u, e, m⟩ := fillRange_ok s start.isLt len.isLt
      rw [e] at h
      exact ⟨_, u, .done, m, by simpa [fillOutcome, eq_comm] using h, fun _ => hr⟩
    · cases h
  | query start len =>
    obtain ⟨r, rfl⟩ := exec_next_of_not_fill (by simp) h
    refine ⟨_, s, r, Marks.none (P := fun _ => False) s (by simp), rfl, fun _ => ?_⟩
    simp only [exec, execQuery] at h
    split at h
    · assumption
    · cases h
  | padcnt start len =>
    obtain ⟨r, rfl⟩ := exec_next_of_not_fill (by simp) h
    exact ⟨_, s, r, Marks.none (P := fun _ => False) s (by simp), rfl, by simp [touchesMap]⟩
  | smask n =>
    obtain ⟨r, rfl⟩ := exec_next_of_not_fill (by simp) h
    exact ⟨_, s, r, Marks.none (P := fun _ => False) s (by simp), rfl, by simp [touchesMap]⟩
  | emask n =>
    obtain ⟨r, rfl⟩ := exec_next_of_not_fill (by simp) h
    exact ⟨_, s, r, Marks.none (P := fun _ => False) s (by simp), rfl, by simp [touchesMap]⟩
  | bmask j =>
    obtain ⟨r, rfl⟩ := exec_next_of_not_fill (by simp) h
    exact ⟨_, s, r, Marks.none (P := fun _ => False) s (by simp), rfl, by simp [touchesMap]⟩

/-! ### The step and its stream -/

theorem step_nil {s : State} (h : s.inbox = []) : step s = .next s := by rw [step, performNext, h]

theorem step_cons {s : State} {ev : HostEvent} {rest : List HostEvent} (h : s.inbox = ev :: rest) :
    step s = perform ev (s.withInbox rest) := by rw [step, performNext, h]

/-- A step that answers a next state waited, was the environment's, or performed one command in a machine that has not
faulted. -/
theorem step_next {s t : State} (h : step s = .next t) :
    (s.inbox = [] ∧ t = s) ∨
    (∃ rest, s.inbox = .reset :: rest ∧ t = (s.withInbox rest).resetEvent) ∨
    (∃ seg rest, s.inbox = .bind seg :: rest ∧ t = (s.withInbox rest).bindEvent seg) ∨
    (∃ cw i rest, s.inbox = .command cw :: rest ∧ s.faulted = none ∧ decode cw = .ok i ∧
      exec i (s.withInbox rest) = .next t) := by
  rcases hin : s.inbox with - | ⟨ev, rest⟩
  · rw [step_nil hin, Host.Outcome.next.injEq] at h
    exact .inl ⟨rfl, h.symm⟩
  · rw [step_cons hin] at h
    cases ev with
    | reset =>
      simp only [perform, Host.Outcome.next.injEq] at h
      exact .inr (.inl ⟨rest, rfl, h.symm⟩)
    | bind seg =>
      simp only [perform, Host.Outcome.next.injEq] at h
      exact .inr (.inr (.inl ⟨seg, rest, rfl, h.symm⟩))
    | command cw =>
      simp only [perform, runWord, State.withInbox_faulted] at h
      split at h
      · cases h
      · rename_i hf
        split at h
        · rename_i i hd
          exact .inr (.inr (.inr ⟨cw, i, rest, rfl, hf, hd, h⟩))
        · cases h

/-- `RESET` keeps the invariant: the bitmap it zeroes is among the zeroed ones after it. -/
theorem State.resetEvent_inv {s : State} (h : s.Inv) : s.resetEvent.Inv := by
  refine ⟨Memory.wf_clear h.1 _ _, fun c hc => ?_, nodup_addSegment _ h.2.2⟩
  obtain ⟨h1, h2⟩ := h.2.1 c (List.mem_filter.mp hc).1
  exact ⟨h1, (mem_addSegment _ _).mpr (.inr h2)⟩

end Sys2Proof.Machine
end

