-- ==== Sys2Proof/Tests/Slice0.lean ====
section
/-!
SUPPORT. Tests on the worked values of the spec (95_test_vectors.md and the rules named), and for every obligation that
has hypotheses a concrete state and operands that meet them.
-/
namespace Sys2Proof.Tests
open Sys2Proof.Machine

/-- What a list of commands leaves, from reset. -/
def after (is : List Instr) : Option State := nextOf (execAll is State.reset)

/-- Some bytes of the bound bitmap after a list of commands. -/
def bytesAfter (is : List Instr) (idxs : List Nat) : Option (List Byte) := (after is).map fun s => idxs.map s.mapByte

/-- The responses of a list of commands. -/
def answers (is : List Instr) : Option (List Response) := (after is).map State.responses

/-- The machine after reset with the bytes of `m` in its bitmap of segment 0. -/
def holding (m : Memory) : State := State.reset.withMem m

/-- The machine before any `RESET` (vector V-X7). -/
def unreset : State := { State.reset with zeroed := [] }

/-- The machine after reset with events waiting. -/
def waiting (evs : List HostEvent) : State := State.reset.withInbox evs

/-! ### Well-formedness: an ill-formed term for each check (30_encoding.md R65, decode corner cases of 95 section 2.2) -/

theorem test_illformed_op6 : (CommandFields.mk 6#3 0#16 0#16).wellFormed = false := by decide
theorem test_illformed_op7 : (CommandFields.mk 7#3 0#16 0#16).wellFormed = false := by decide
theorem test_illformed_smask_a : (CommandFields.mk 1#3 1#16 0#16).wellFormed = false := by decide
theorem test_illformed_bmask_a : (CommandFields.mk 3#3 1#16 0#16).wellFormed = false := by decide
theorem test_illformed_smask_bit8 : (CommandFields.mk 1#3 0#16 0x100#16).wellFormed = false := by decide
theorem test_illformed_emask_bit15 : (CommandFields.mk 2#3 0#16 0x8000#16).wellFormed = false := by decide
theorem test_illformed_bmask_bit3 : (CommandFields.mk 3#3 0#16 8#16).wellFormed = false := by decide
theorem test_wellformed_nearest : (CommandFields.mk 1#3 0#16 0xFF#16).wellFormed = true ∧
    (CommandFields.mk 3#3 0#16 7#16).wellFormed = true ∧ (CommandFields.mk 5#3 0#16 0#16).wellFormed = true := by decide

/-! ### Decoding: words written out from 30_encoding.md R60 to R63, bit 34 first -/

theorem test_decode_padcnt : decode 0b000_0000000000000100_0000000000001000#35 = .ok (.padcnt 4#16 8#16) := by decide
theorem test_decode_smask : decode 0b001_0000000000000000_0000000000000111#35 = .ok (.smask 7#8) := by decide
theorem test_decode_emask : decode 0b010_0000000000000000_0000000011111111#35 = .ok (.emask 255#8) := by decide
theorem test_decode_bmask : decode 0b011_0000000000000000_0000000000000101#35 = .ok (.bmask 5#3) := by decide
theorem test_decode_fill : decode 0b100_1111111111111100_0000000000001000#35 = .ok (.fill 0xFFFC#16 8#16) := by decide
theorem test_decode_query : decode 0b101_0001000000000000_1111111111111111#35 = .ok (.query 0x1000#16 0xFFFF#16) := by
  decide
theorem test_decode_reserved : decode 0x100000100#35 = .error (.mustBeZero 1#3) ∧
    decode 0x100010000#35 = .error (.mustBeZero 1#3) ∧ decode 0x300000008#35 = .error (.mustBeZero 3#3) ∧
    decode 0x600000000#35 = .error (.unassignedOp 6#3) ∧ decode 0x700000000#35 = .error (.unassignedOp 7#3) := by decide
theorem test_decode_table_word : decodeTableWord 40 0x400000018 = some (.fill 0#16 24#16) ∧
    decodeTableWord 40 0x600000000 = none := by decide

/-! ### The commands on the spec's vectors -/

/-- V-P3, V-P29, V-P33, V-P19 (95 section 2.1). -/
theorem test_padcnt : answers [.padcnt 4#16 8#16, .padcnt 0xFFFF#16 0xFFFF#16, .padcnt 0xFFFC#16 8#16, .padcnt 4#16 4#16] =
    some [.counts 4#16 0#16 4#16, .counts 1#16 8191#16 6#16, .counts 4#16 0#16 4#16, .counts 4#16 0#16 0#16] := by decide

/-- V-M3, V-M8, V-M10, V-M13. -/
theorem test_smask : answers [.smask 2#8, .smask 7#8, .smask 9#8, .smask 255#8] =
    some [.mask 0x03#8, .mask 0x7F#8, .mask 0xFF#8, .mask 0xFF#8] := by decide

/-- V-M14, V-M18, V-M21, V-M23. -/
theorem test_emask : answers [.emask 0#8, .emask 4#8, .emask 7#8, .emask 9#8] =
    some [.mask 0x00#8, .mask 0xF0#8, .mask 0xFE#8, .mask 0xFF#8] := by decide

/-- V-M27, V-M30, V-M34. -/
theorem test_bmask : answers [.bmask 0#3, .bmask 3#3, .bmask 7#3] =
    some [.mask 0x80#8, .mask 0x10#8, .mask 0x01#8] := by decide

/-- A helper with a wider index gives an index above 7 no value (41_mask.md R92, 93_implementation_defined.md U2). -/
theorem test_offset_mask : offsetMask 0 = some 0x80#8 ∧ offsetMask 7 = some 0x01#8 ∧ offsetMask 8 = none ∧
    offsetMask 9 = none := by decide

/-- V-F4 (90_conflicts.md C1), V-F11, V-F12, V-F19, V-F33. -/
theorem test_fill : bytesAfter [.fill 4#16 8#16] [0, 1, 2] = some [0x0F#8, 0xF0#8, 0x00#8] ∧
    bytesAfter [.fill 6#16 20#16] [0, 1, 2, 3] = some [0x03#8, 0xFF#8, 0xFF#8, 0xC0#8] ∧
    bytesAfter [.fill 12#16 3#16] [0, 1] = some [0x00#8, 0x0E#8] ∧
    bytesAfter [.fill 0xFFFC#16 8#16] [0, 8191] = some [0xF0#8, 0x0F#8] ∧
    bytesAfter [.fill 7#16 9#16, .fill 4#16 8#16] [0, 1] = some [0x0F#8, 0xFF#8] := by decide

/-- V-X2, V-X3: a buffer of 8191 bytes. -/
theorem test_fill_short_buffer :
    (nextOf (fillOutcome (fillRange 8191 0xFFF8 8 State.reset))).map State.faulted = some (some 8191) ∧
    (nextOf (fillOutcome (fillRange 8191 0xFFF0 8 State.reset))).map (fun s => (s.faulted, s.mapByte 8190)) =
      some (none, 0xFF#8) := by decide

/-- V-Q3, V-Q2, V-Q14, V-Q15, V-Q18, V-Q20. -/
theorem test_query :
    answers [.fill 0#16 24#16, .query 23#16 1#16, .query 24#16 1#16] = some [.done, .hit true, .hit false] ∧
    answers [.fill 3#16 1#16, .query 4#16 8#16, .fill 9#16 1#16, .query 4#16 8#16] =
      some [.done, .hit false, .done, .hit true] ∧
    answers [.fill 0#16 4#16, .query 0xFFFC#16 8#16, .fill 0xFFFC#16 8#16, .query 0#16 4#16] =
      some [.done, .hit false, .done, .hit true] := by decide

/-- V-X4 (a hit before the bad index) and a bad index that is reached, over buffers of 8191 and 1 bytes. -/
theorem test_query_short_buffer :
    (nextOf (queryOutcome (holding [(0, 0x80#8)]) (queryRange 8191 0 0xFFFF (holding [(0, 0x80#8)])))).map
      (fun s => (s.faulted, s.responses)) = some (none, [.hit true]) ∧
    (nextOf (queryOutcome State.reset (queryRange 1 0 16 State.reset))).map
      (fun s => (s.faulted, s.responses)) = some (some 1, []) := by decide

/-! ### The step -/

/-- Program P3, first row: a presented word is performed and taken from the stream. -/
theorem test_step_command : (nextOf (step (waiting [.command 0x400070009#35]))).map
    (fun s => (s.mem, s.inbox, s.responseWords)) = some ([(0, 0x01#8), (1, 0xFF#8)], [], [0#48]) := by decide

/-- V-X6: a reserved word is refused. -/
theorem test_step_reserved : step (waiting [.command 0x600000000#35]) =
    .refused (.reservedWord (.unassignedOp 6#3)) := by rfl

/-- V-X7: FILL with no `RESET` before it is refused; PADCNT needs none (70_reset_and_hazards.md R162). -/
theorem test_unreset : exec (.fill 0#16 8#16) unreset = .refused (.mapNotReset 0#16) ∧
    (nextOf (exec (.padcnt 0#16 8#16) unreset)).isSome = true := ⟨rfl, by decide⟩

/-- `RESET` zeroes the bound bitmap alone (program P6: segment 1 keeps its byte). -/
theorem test_reset_event :
    (nextOf (step ((holding [(0, 0x0F#8), (8191, 0x01#8), (8192, 0x80#8)]).withInbox [.reset]))).map State.mem =
      some [(8192, 0x80#8)] := by decide

/-- Program P6: the wrapped tail stays in its own segment. -/
theorem test_bind_event :
    (nextOf (performAll [.bind 1#16, .reset, .bind 0#16, .command 0x4FFF00020#35, .bind 1#16,
      .command 0x500000010#35] State.reset)).map (fun s => (s.responses, s.byteOf 0#16 0, s.byteOf 1#16 0)) =
      some ([.done, .hit false], 0xFF#8, 0x00#8) := by decide

/-- RSP of `PADCNT 4, 8`, `EMASK 3` and a hit (95 section 3, P3 and P7). -/
theorem test_response_words : (Response.counts 4#16 0#16 4#16).word = 0x000400000004#48 ∧
    (Response.mask 0xE0#8).word = 0xE0#48 ∧ (Response.hit true).word = 1#48 := by decide

/-- Notation of responses (30_encoding.md R68). -/
theorem test_response_text : (Response.counts 4#16 0#16 4#16).text = "-> (4, 0, 4)" ∧
    (Response.mask 0x0F#8).text = "-> 0x0F" ∧ (Response.hit false).text = "-> false" := by decide

/-- A word of the opcode table, presented after reset, is the first command that runs. -/
theorem test_present_table_word :
    (nextOf (step (State.reset.withFetchWord 40 0x300000007))).map State.responses = some [.mask 0x01#8] := by decide

/-! ### Witnesses: a state and operands that meet the hypotheses of each obligation that has some -/

theorem witness_decoded_words : decode 0x000040008#35 = .ok (.padcnt 4#16 8#16) ∧ decode 0x100000007#35 = .ok (.smask 7#8) ∧
    decode 0x200000004#35 = .ok (.emask 4#8) ∧ decode 0x300000007#35 = .ok (.bmask 7#3) ∧
    decode 0x4FFFFFFFF#35 = .ok (.fill 0xFFFF#16 0xFFFF#16) ∧ decode 0x500000000#35 = .ok (.query 0#16 0#16) := by decide

/-- DecodeSelectsTheTableRow: a word for each row, and a word that selects none. -/
theorem witness_rows : (opcodeRows.zip [0x0FFFFFFFF#35, 0x1000000FF#35, 0x2000000FF#35, 0x300000007#35, 0x4FFFFFFFF#35,
    0x5FFFFFFFF#35]).all (fun x => selects x.2 x.1) = true ∧ opcodeRows.all (fun r => !selects 0x600000000#35 r) = true := by
  decide

/-- ReservedWordsAreRefused: each clause of the list at a boundary word, waiting at a machine that has not faulted. -/
theorem witness_reserved : decode 0x600000000#35 = .error (.unassignedOp 6#3) ∧ decode 0x7FFFFFFFF#35 = .error (.unassignedOp 7#3) ∧
    decode 0x100000100#35 = .error (.mustBeZero 1#3) ∧ decode 0x280000000#35 = .error (.mustBeZero 2#3) ∧
    decode 0x300000008#35 = .error (.mustBeZero 3#3) ∧
    (waiting [.command 0x600000000#35]).inbox = .command 0x600000000#35 :: [] ∧
    (waiting [.command 0x600000000#35]).faulted = none := by decide

/-- ResponseWordHoldsTheResult: each command answers a next state. -/
theorem witness_every_command_answers : [Instr.padcnt 4#16 8#16, .smask 7#8, .emask 7#8, .bmask 7#3, .fill 0#16 8#16,
    .query 0#16 8#16].all (fun i => (nextOf (exec i State.reset)).isSome) = true := by decide

/-- StepRunsThePresentedCommand. -/
theorem witness_presented : (waiting [.command 0x400000018#35]).inbox = .command 0x400000018#35 :: [] ∧
    (waiting [.command 0x400000018#35]).faulted = none ∧ decode 0x400000018#35 = .ok (.fill 0#16 24#16) := by decide

/-- PerformedEventSeesNoStream: an event that answers a next state, one that faults and one that is refused. -/
theorem witness_performed : (nextOf (perform (.command 0x400000018#35) State.reset)).isSome = true ∧
    perform (.command 0x400000018#35) (State.reset.raiseBounds 8191) = .fault (.boundsViolation 8191) ∧
    perform (.command 0x600000000#35) State.reset = .refused (.reservedWord (.unassignedOp 6#3)) := ⟨by decide, rfl, rfl⟩

/-- RunTakesItsStreamAsArgument: a stream that ends, one that faults at its end and one that is refused there. -/
theorem witness_streams : (nextOf (performAll [.reset, .command 0x400000018#35] State.reset)).isSome = true ∧
    performAll [.bind 1#16, .command 0x400000018#35] (State.reset.raiseBounds 8191) = .fault (.boundsViolation 8191) ∧
    performAll [.reset, .command 0x700000000#35] State.reset = .refused (.reservedWord (.unassignedOp 7#3)) :=
  ⟨by decide, rfl, rfl⟩

/-- SingleBitMasksEndAtSeven: a leading run that would leave its byte stops at the index next to the range. -/
theorem witness_index_above_seven : fillOutcome (fillLeading 8192 0 7 2 State.reset) = .refused (.noBitMask 8) ∧
    queryOutcome State.reset (queryLeading 8192 0 State.reset 7 2) = .refused (.noBitMask 8) ∧ (7 : Nat) < 8 :=
  ⟨rfl, rfl, by decide⟩

/-- PresentedTableWordRunsNext. -/
theorem witness_table_word : State.reset.faulted = none ∧ decodeTableWord 40 0x400000018 = some (.fill 0#16 24#16) := by
  decide

/-- NothingPresentedChangesNothing. -/
theorem witness_nothing_presented : State.reset.inbox = [] := rfl

/-- ResetEventZeroesTheBoundMap, BindEventKeepsEveryMap: the event first in the stream; addresses at both ends of the
bitmap and outside it. -/
theorem witness_environment_events : (waiting [.reset]).inbox = .reset :: [] ∧
    (waiting [.bind 1#16]).inbox = .bind 1#16 :: [] ∧
    ¬(mapAddr 1#16 0 ≤ 8191 ∧ 8191 < mapAddr 1#16 8192) ∧ ¬(mapAddr 1#16 0 ≤ 16384 ∧ 16384 < mapAddr 1#16 8192) := by decide

/-- FaultedMachinePerformsNoCommand, OnlyResetEndsTheFault: a faulted machine, waiting, at a word, and at `RESET`. -/
theorem witness_faulted : ((waiting [.command 0#35]).raiseBounds 8191).faulted = some 8191 ∧
    ((waiting [.command 0#35]).raiseBounds 8191).inbox = .command 0#35 :: [] ∧
    nextOf (step (State.reset.raiseBounds 8191)) = some (State.reset.raiseBounds 8191) ∧
    (nextOf (step ((waiting [.reset]).raiseBounds 8191))).map State.faulted = some none := by decide

/-- PadcntCaseAnalysis: each case at its boundaries: A; B with `len = 8`; C with `len = 7` aligned, `len = r - 1`,
`len = r`; D with `len = r + 1`. -/
theorem witness_padcnt_cases : (padCounts 5 0 = ⟨0, 0, 0⟩) ∧ (padCounts 0 8 = ⟨0, 1, 0⟩) ∧ (padCounts 0 7 = ⟨7, 0, 0⟩) ∧
    (padCounts 4 3 = ⟨3, 0, 0⟩) ∧ (padCounts 4 4 = ⟨4, 0, 0⟩) ∧ (padCounts 4 5 = ⟨4, 0, 1⟩) := by decide

/-- PadcntShapeFacts: a triple with full bytes, one with a tail only, and one with no leading bits. -/
theorem witness_padcnt_shape : (padCounts 0xFFFF 0xFFFF = ⟨1, 8191, 6⟩) ∧ (padCounts 4 8 = ⟨4, 0, 4⟩) ∧
    (padCounts 0 0 = ⟨0, 0, 0⟩) := by decide

/-- SmaskAnswersTheLowBits, EmaskAnswersTheHighBits, MaskLaws: counts where the clauses meet. -/
theorem witness_mask_counts : 8 ≤ (8#8).toNat ∧ (7#8).toNat < 8 ∧ (0#8).toNat ≤ (255#8).toNat ∧ (8 : Nat) ≤ 8 ∧
    (7 : Nat) < 8 := by decide

/-- LeadingRunAsOneMask: an interior run, one that reaches the byte's end, and an empty one. -/
theorem witness_leading_runs : (3 < 8 ∧ 3 + 2 ≤ 8) ∧ (7 < 8 ∧ 7 + 1 ≤ 8) ∧ ((0 : Nat) < 8 ∧ 0 + 0 ≤ 8) := by decide

/-- BitOrderIsMsbFirst and every obligation of a FILL or a QUERY on a bitmap that was reset: also on a bitmap that is not
zero, and with a position at each end. -/
theorem witness_map_ready : State.reset.mapReady = true ∧ (holding [(0, 0xA5#8)]).mapReady = true ∧
    (holding [(0, 0xA5#8)]).bit 0 = true ∧ (holding [(8191, 0x01#8)]).bit 65535 = true := by decide

/-- TouchedBytesAreThoseOfTheRange: a range that ends at position 65535, and one that leaves a buffer of 8191 bytes. -/
theorem witness_touched : (65528 + 8 ≤ 65536 ∧ touched 65528 8 = [8191]) ∧ touched 4 8 = [0, 0, 0, 0, 1] := by decide

/-- EveryIndexIsInTheMap: a wrapping range, with an index in each pass. -/
theorem witness_touched_wrapping : 8191 ∈ touched 0xFFFC (workingLen 0xFFFC 8) ∧ 0 ∈ touched 0 (remainder 0xFFFC 8) := by
  decide

/-- FillSetsExactlyItsPositions, FillSetsNothingOutsideItsRange, FillChangesNothingElse: a position in a wrapped range, one
outside it, and an address that holds none of its positions. -/
theorem witness_fill_positions : inFillSet 0xFFFC 8 3 ∧ ¬inFillSet 0xFFFC 8 4 ∧ (4 : Nat) < 65536 ∧
    ∀ p, inFillSet 0 8 p → (1 : Nat) ≠ mapAddr 0#16 (p / 8) := by
  refine ⟨⟨7, by decide, by decide⟩, ?_, by decide, ?_⟩
  · rintro ⟨k, hk, h⟩
    omega
  · rintro p ⟨k, hk, rfl⟩
    simp only [mapAddr, BitVec.toNat_ofNat]
    omega

/-- FillWritesTheThreeParts: a range with all three parts, not wrapping. -/
theorem witness_fill_parts : State.reset.mapReady = true ∧ (6#16).toNat + (20#16).toNat ≤ 65536 ∧
    padCounts 6 20 = ⟨2, 2, 2⟩ := by decide

/-- WrappingFillIsTwoFills: the smallest and the largest wrapping sum. -/
theorem witness_wrapping : State.reset.mapReady = true ∧ 65536 < (2#16).toNat + (0xFFFF#16).toNat ∧
    65536 < (0xFFFF#16).toNat + (0xFFFF#16).toNat := by decide

/-- FillNeverClearsABit: a set bit of the bound bitmap and one of another. -/
theorem witness_set_bits : (holding [(0, 0x80#8), (8192, 0x01#8)]).mapReady = true ∧
    (holding [(0, 0x80#8), (8192, 0x01#8)]).bitOf 0#16 0 = true ∧
    (holding [(0, 0x80#8), (8192, 0x01#8)]).bitOf 1#16 7 = true := by decide

/-- FillIsIdempotent, FillsCommuteAndAccumulate: a bitmap in canonical form. -/
theorem witness_canonical : (holding [(0, 0x80#8), (8192, 0x01#8)]).mapReady = true ∧
    Memory.wf (holding [(0, 0x80#8), (8192, 0x01#8)]).mem := by decide

/-- FillFaultsAtTheFirstByteOutside, QueryFaultsOnlyBeforeAHit: buffers of 8191 and 0 bytes, a hit before the bad index
and no hit. -/
theorem witness_short_buffer : 0 < (8#16).toNat ∧ 8191 ≤ (min ((0xFFF8#16).toNat + (8#16).toNat) 65536 - 1) / 8 ∧
    0 ≤ (min ((0#16).toNat + (8#16).toNat) 65536 - 1) / 8 ∧
    ((0#16).toNat ≤ 0 ∧ 0 < min ((0#16).toNat + (16#16).toNat) 65536 ∧ 0 / 8 < 1 ∧ 1 ≤ (16 - 1) / 8 ∧
      (holding [(0, 0x80#8)]).bit 0 = true) := by decide

/-- QueryFaultsOnlyBeforeAHit: no position in the buffer is set. -/
theorem witness_short_buffer_no_hit : ∀ p, (0#16).toNat ≤ p → p < min ((0#16).toNat + (16#16).toNat) 65536 → p / 8 < 1 →
    State.reset.bit p = false := by
  intro p _ _ h
  have hp : p < 8 := by omega
  interval_cases p <;> decide

/-- QueryFindsWhatFillMarked: a range that is not empty. -/
theorem witness_not_empty : State.reset.mapReady = true ∧ (1#16 : Half) ≠ 0#16 := by decide

/-- QueryIgnoresTheWrappedTail: two bitmaps that differ below `start` and agree from there on. -/
theorem witness_same_tail : (holding [(0, 0xF0#8)]).mapReady = true ∧ State.reset.mapReady = true ∧
    (holding [(0, 0xF0#8)]).bit 0 ≠ State.reset.bit 0 ∧
    ∀ p, (0xFFFC#16).toNat ≤ p → p < 65536 → (holding [(0, 0xF0#8)]).bit p = State.reset.bit p := by
  refine ⟨by decide, by decide, by decide, fun p h1 h2 => ?_⟩
  have hp : 65532 ≤ p := h1
  interval_cases p <;> decide

/-- WrapAsymmetryConsequences: in the state after reset no position from 4096 on is set, so none from 0xFFFC on. -/
theorem witness_unset_tail : State.reset.mapReady = true ∧ (∀ p, 4096 ≤ p → p < 65536 → State.reset.bit p = false) ∧
    ∀ p, 0xFFFC ≤ p → p < 65536 → State.reset.bit p = false := by
  have h : ∀ p, State.reset.bit p = false := fun p => by
    rw [State.bit, State.bitOf_eq]
    simp [State.byteOf, State.reset, Memory.read]
  exact ⟨by decide, fun p _ _ => h p, fun p _ _ => h p⟩

/-- MapCommandsNeedReset. -/
theorem witness_unreset : unreset.mapReady = false := by decide

/-- EveryCommandCompletes, OtherCommandsChangeNothing: a command that needs no reset where there was none, and one that
needs it where there was. -/
theorem witness_ready_for : (touchesMap (.padcnt 0#16 8#16) = true → unreset.mapReady = true) ∧
    (touchesMap (.query 0#16 8#16) = true → State.reset.mapReady = true) ∧
    ∀ start len, Instr.query 0#16 8#16 ≠ .fill start len := by
  refine ⟨by decide, by decide, fun _ _ h => by cases h⟩

/-- MapInvariantsOfCommands, ResponsesAndInboxAreNotRead: a FILL and a QUERY that answer, on a bitmap with a set bit. -/
theorem witness_command_answers : (nextOf (exec (.fill 0#16 8#16) (holding [(0, 0x80#8)]))).isSome = true ∧
    (nextOf (exec (.query 0#16 8#16) (holding [(0, 0x80#8)]))).isSome = true ∧
    (holding [(0, 0x80#8)]).bitOf 0#16 0 = true := by decide

/-- OnlyResetClearsABit: a step that does clear one. -/
theorem witness_cleared_bit : ((holding [(0, 0x80#8)]).withInbox [.reset]).bitOf 0#16 0 = true ∧
    (nextOf (step ((holding [(0, 0x80#8)]).withInbox [.reset]))).map (fun s => s.bitOf 0#16 0) = some false := by decide

/-- OnlyTheEnvironmentBindsAndResets: steps that do change the binding and the segments reset. -/
theorem witness_environment_steps :
    (nextOf (step (waiting [.bind 1#16]))).map State.bound = some 1#16 ∧
    (nextOf (step (unreset.withInbox [.reset]))).map State.zeroed = some [0#16] := by decide

/-- BoundsViolationIsUnreachable: a machine that has not faulted, at a FILL that wraps. -/
theorem witness_not_faulted : (waiting [.command 0x4FFFC0008#35]).faulted = none ∧
    (nextOf (step (waiting [.command 0x4FFFC0008#35]))).isSome = true := by decide

/-- SegmentsAreIndependent: two machines with the same bound bitmap that differ in another one. -/
theorem witness_other_segment : (nextOf (exec (.fill 0#16 8#16) (holding [(1, 0x0F#8)]))).isSome = true ∧
    (holding [(1, 0x0F#8), (8192, 0x80#8)]).mapReady = true ∧
    (holding [(1, 0x0F#8), (8192, 0x80#8)]).bound = (holding [(1, 0x0F#8)]).bound ∧
    ∀ idx < 8192, (holding [(1, 0x0F#8), (8192, 0x80#8)]).mapByte idx = (holding [(1, 0x0F#8)]).mapByte idx := by
  refine ⟨by decide, by decide, rfl, fun idx h => ?_⟩
  have hb : (State.reset.bound).toNat = 0 := rfl
  simp only [holding, State.mapByte, State.byteOf, State.withMem_mem, State.withMem_bound, Memory.read, mapAddr, hb]
  rw [if_neg (show ¬8192 = 0 * Config.segmentBytes + idx by omega)]

/-- EveryStepKeepsTheInvariant: states with the invariant, with a FILL and with a `RESET` first in the stream. -/
theorem witness_invariant : (waiting [.command 0x400000018#35]).Inv ∧ ((holding [(0, 0x80#8)]).withInbox [.reset]).Inv ∧
    (nextOf (step (waiting [.command 0x400000018#35]))).isSome = true ∧
    (nextOf (step ((holding [(0, 0x80#8)]).withInbox [.reset]))).isSome = true := by decide

end Sys2Proof.Tests
end

section
/-!
PROOFS. The family of 00_scope.md: the step relation takes what is presented as its parameter (R14), and neither sees nor
changes the events still to come (10_state.md R23). The engines are proved to commute with every change of the state that
leaves the bound bitmap alone; the stream is one such change.
-/
namespace Sys2Proof.Machine

/-! ### Changes that the engines do not see -/

/-- A change of the state that no byte access sees: bytes of the bound bitmap read the same after it, and storing one
before or after it comes to the same. -/
structure Unseen (g : State → State) : Prop where
  mapByte : ∀ s idx, (g s).mapByte idx = s.mapByte idx
  setByte : ∀ s idx v, (g s).setByte idx v = g (s.setByte idx v)

theorem unseen_withInbox (evs : List HostEvent) : Unseen fun s => s.withInbox evs :=
  ⟨fun _ _ => rfl, fun _ _ _ => rfl⟩

/-- Where `f` completes, it completes after the change `g` as well, and ends in the changed state. -/
def CompletesAlike (g : State → State) (f : State → Except Stop State) : Prop :=
  ∀ ⦃s t⦄, f s = .ok t → f (g s) = .ok (g t)

theorem CompletesAlike.ok (g : State → State) : CompletesAlike g .ok := by
  rintro s t ⟨⟩
  rfl

theorem CompletesAlike.bind {g : State → State} {f k : State → Except Stop State} (hf : CompletesAlike g f)
    (hk : CompletesAlike g k) : CompletesAlike g fun s => f s >>= k := by
  intro s t (h : (f s).bind k = .ok t)
  show (f (g s)).bind k = .ok (g t)
  cases hfs : f s with
  | error stop => rw [hfs] at h; cases h
  | ok u =>
    rw [hfs] at h
    rw [hf hfs]
    exact hk h

/-- A scan of the whole bitmap completes, and answers whether a position of the range is set (43_query.md R125). -/
theorem queryRange_ok (s : State) {start : Nat} (len : Nat) (hs : start ≤ 65536) :
    ∃ h, queryRange 8192 start len s = .ok h ∧
      (h = true ↔ s.anySet fun p => start ≤ p ∧ p < start + workingLen start len ∧ p / 8 < 8192) := by
  obtain ⟨hit, clear⟩ := queryPass_spec (cap := 8192) (start := start) (len := workingLen start len) s
  have hin : workingLen start len = 0 ∨ (start + workingLen start len - 1) / 8 < 8192 := by
    rw [workingLen_eq hs]
    omega
  rw [if_pos hin] at clear
  by_cases hset : s.anySet fun p => start ≤ p ∧ p < start + workingLen start len ∧ p / 8 < 8192
  · exact ⟨true, hit hset, by simpa using hset⟩
  · exact ⟨false, clear hset, by simpa using hset⟩

section Engines
variable {g : State → State} (hg : Unseen g)
include hg

theorem Unseen.memWrite_alike (cap idx : Nat) (v : Byte) : CompletesAlike g (memWrite cap idx v) := by
  intro s t h
  rcases Nat.lt_or_ge idx cap with hc | hc
  · rw [memWrite_ok v _ hc, Except.ok.injEq] at h
    rw [memWrite_ok v _ hc, hg.setByte, h]
  · rw [memWrite_error v _ hc] at h
    cases h

theorem Unseen.orIn_alike (cap idx : Nat) (m : Byte) : CompletesAlike g (orIn cap idx m) := by
  intro s t h
  rcases Nat.lt_or_ge idx cap with hc | hc
  · rw [orIn_ok m _ hc, Except.ok.injEq] at h
    rw [orIn_ok m _ hc, hg.mapByte, hg.setByte, h]
  · rw [orIn_error m _ hc] at h
    cases h

theorem Unseen.fillLeading_alike (cap target k : Nat) : ∀ off, CompletesAlike g (fillLeading cap target off k) := by
  induction k with
  | zero => exact fun _ => CompletesAlike.ok g
  | succ k ih =>
    intro off s t h
    rcases Nat.lt_or_ge off 8 with ho | ho
    · simp only [fillLeading, maskAt_ok ho] at h ⊢
      exact (hg.orIn_alike cap target (positionMask off)).bind (ih (off + 1)) h
    · rw [fillLeading, maskAt_error ho] at h
      cases h

theorem Unseen.fillFull_alike (cap k : Nat) : ∀ idx, CompletesAlike g (fillFull cap idx k) := by
  induction k with
  | zero => exact fun _ => CompletesAlike.ok g
  | succ k ih => exact fun idx => (hg.memWrite_alike cap idx 0xFF#8).bind (ih (idx + 1))

theorem Unseen.fillTrailing_alike (cap idx trailing : Nat) : CompletesAlike g (fillTrailing cap idx trailing) := by
  intro s t h
  unfold fillTrailing at h ⊢
  split
  · rename_i ht
    rw [if_pos ht] at h
    exact hg.orIn_alike cap idx _ h
  · rename_i ht
    rw [if_neg ht] at h
    exact CompletesAlike.ok g h

theorem Unseen.fillPass_alike (cap start len : Nat) : CompletesAlike g (fillPass cap start len) :=
  (hg.fillLeading_alike cap _ _ _).bind ((hg.fillFull_alike cap _ _).bind (hg.fillTrailing_alike cap _ _))

theorem Unseen.fillRange_alike (cap start len : Nat) : CompletesAlike g (fillRange cap start len) := by
  intro s t h
  unfold fillRange at h ⊢
  split
  · rename_i hw
    rw [if_pos hw] at h
    exact (hg.fillPass_alike cap start _).bind (hg.fillPass_alike cap 0 _) h
  · rename_i hw
    rw [if_neg hw] at h
    exact hg.fillPass_alike cap start len h

theorem Unseen.bit (s : State) (p : Nat) : (g s).bit p = s.bit p :=
  congrArg (fun b => anyUnder b (positionMask p)) (hg.mapByte s (p / 8))

theorem Unseen.anySet (s : State) (P : Nat → Prop) : (g s).anySet P ↔ s.anySet P := by
  simp only [State.anySet, hg.bit]

/-- A scan of the whole bitmap answers the same after the change. -/
theorem Unseen.queryRange_same (s : State) {start : Nat} (len : Nat) (hs : start ≤ 65536) :
    queryRange 8192 start len (g s) = queryRange 8192 start len s := by
  obtain ⟨h, e, hh⟩ := queryRange_ok s len hs
  obtain ⟨h', e', hh'⟩ := queryRange_ok (g s) len hs
  rw [e, e', Bool.eq_iff_iff.mpr (hh'.trans ((hg.anySet s _).trans hh.symm))]

end Engines

/-! ### What is performed and the stream -/

/-- The outcome with `g` done to its next state, if it is one. -/
def mapNext (g : State → State) : Host.Outcome State Fault Refusal → Host.Outcome State Fault Refusal
  | .next t => .next (g t)
  | .fault r => .fault r
  | .refused r => .refused r

@[simp] theorem mapNext_next (g : State → State) (t : State) : mapNext g (.next t) = .next (g t) := rfl
@[simp] theorem mapNext_fault (g : State → State) (r : Fault) : mapNext g (.fault r) = .fault r := rfl
@[simp] theorem mapNext_refused (g : State → State) (r : Refusal) : mapNext g (.refused r) = .refused r := rfl

theorem execFill_withInbox (start len : Half) (s : State) (evs : List HostEvent) :
    execFill start len (s.withInbox evs) = mapNext (·.withInbox evs) (execFill start len s) := by
  obtain ⟨t, e, -⟩ := fillRange_ok s start.isLt len.isLt
  have e' := (unseen_withInbox evs).fillRange_alike 8192 start.toNat len.toNat e
  unfold execFill
  rw [State.withInbox_mapReady, e, e']
  split <;> rfl

theorem execQuery_withInbox (start len : Half) (s : State) (evs : List HostEvent) :
    execQuery start len (s.withInbox evs) = mapNext (·.withInbox evs) (execQuery start len s) := by
  obtain ⟨h, e, -⟩ := queryRange_ok s len.toNat start.isLt.le
  have e' := (unseen_withInbox evs).queryRange_same s len.toNat start.isLt.le
  unfold execQuery
  rw [State.withInbox_mapReady, e', e]
  split <;> rfl

/-- A command does the same on any events still to come (10_state.md R23). -/
theorem exec_withInbox (i : Instr) (s : State) (evs : List HostEvent) :
    exec i (s.withInbox evs) = mapNext (·.withInbox evs) (exec i s) := by
  cases i with
  | padcnt start len => rfl
  | smask n => rfl
  | emask n => rfl
  | bmask j => rfl
  | fill start len => exact execFill_withInbox start len s evs
  | query start len => exact execQuery_withInbox start len s evs

/-- A command word in a machine that has not faulted is the command it decodes to. -/
theorem runWord_decoded {cw : CommandWord} {i : Instr} {s : State} (hf : s.faulted = none) (hd : decode cw = .ok i) :
    runWord cw s = exec i s := by
  rw [runWord, hf, hd]

theorem runWord_withInbox (cw : CommandWord) (s : State) (evs : List HostEvent) :
    runWord cw (s.withInbox evs) = mapNext (·.withInbox evs) (runWord cw s) := by
  unfold runWord
  rw [State.withInbox_faulted]
  cases s.faulted with
  | some idx => rfl
  | none =>
    cases decode cw with
    | ok i => exact exec_withInbox i s evs
    | error why => rfl

/-- An event does the same on any events still to come (00_scope.md R14). -/
theorem perform_withInbox (ev : HostEvent) (s : State) (evs : List HostEvent) :
    perform ev (s.withInbox evs) = mapNext (·.withInbox evs) (perform ev s) := by
  cases ev with
  | reset => rfl
  | bind seg => rfl
  | command cw => exact runWord_withInbox cw s evs

/-- An event leaves the events still to come alone: with them put back the outcome is the same. -/
theorem perform_inbox {ev : HostEvent} {s t : State} (h : perform ev s = .next t) : t.inbox = s.inbox := by
  have hput := perform_withInbox ev s s.inbox
  rw [show s.withInbox s.inbox = s from rfl, h, mapNext_next, Host.Outcome.next.injEq] at hput
  rw [hput, State.withInbox_inbox]

theorem run_succ_of_next {M : Host.Core} {k : Nat} {s s' : M.State} (h : M.step s = .next s') :
    M.run (k + 1) s = M.run k s' := by
  rw [Host.Core.run, h]

theorem run_succ_of_fault {M : Host.Core} {k : Nat} {s : M.State} {r : M.Fault} (h : M.step s = .fault r) :
    M.run (k + 1) s = .fault r := by
  rw [Host.Core.run, h]

theorem run_succ_of_refused {M : Host.Core} {k : Nat} {s : M.State} {r : M.Refusal} (h : M.step s = .refused r) :
    M.run (k + 1) s = .refused r := by
  rw [Host.Core.run, h]

/-- Steps over a stream that stands in the state are the run of that stream, with what comes after it still to come. -/
theorem run_withInbox (evs rest : List HostEvent) (s : State) :
    Host.Core.run core evs.length (s.withInbox (evs ++ rest)) = mapNext (·.withInbox rest) (performAll evs s) := by
  induction evs generalizing s with
  | nil => rfl
  | cons ev evs ih =>
    have hstep : core.step (s.withInbox (ev :: evs ++ rest)) = mapNext (·.withInbox (evs ++ rest)) (perform ev s) :=
      (step_cons (s := s.withInbox (ev :: evs ++ rest)) rfl).trans (perform_withInbox ev s (evs ++ rest))
    rw [performAll]
    cases hp : perform ev s with
    | next t =>
      rw [hp] at hstep
      exact (run_succ_of_next (M := core) hstep).trans (ih t)
    | fault r =>
      rw [hp] at hstep
      exact run_succ_of_fault (M := core) hstep
    | refused r =>
      rw [hp] at hstep
      exact run_succ_of_refused (M := core) hstep

theorem decode_of_decodeTableWord {nbits w : Nat} {i : Instr} (h : decodeTableWord nbits w = some i) :
    decode (tableWord nbits w) = .ok i := by
  unfold decodeTableWord at h
  split at h
  · rename_i hd
    cases h
    exact hd
  · cases h

/-! ### The statements -/

/-- Settles O58: an event commutes with putting another stream into the state. -/
theorem performedEventSeesNoStream : Obligations.PerformedEventSeesNoStream := by
  intro ev s
  refine ⟨fun t h => ⟨perform_inbox h, fun evs => ?_⟩, fun r h evs => ?_, fun r h evs => ?_⟩
  · rw [perform_withInbox, h, mapNext_next]
  · rw [perform_withInbox, h, mapNext_fault]
  · rw [perform_withInbox, h, mapNext_refused]

/-- Settles O59, by induction on the stream. -/
theorem runTakesItsStreamAsArgument : Obligations.RunTakesItsStreamAsArgument := by
  intro evs rest s
  have hrun := run_withInbox evs rest s
  exact ⟨fun _ h => hrun.trans (congrArg _ h), fun _ h => hrun.trans (congrArg _ h), fun _ h => hrun.trans (congrArg _ h)⟩

/-- Settles O9: the step takes the word from the stream, and the machine runs what it decodes to. -/
theorem stepRunsThePresentedCommand : Obligations.StepRunsThePresentedCommand := by
  intro s cw rest i hin hf hd
  rw [step_cons hin]
  exact runWord_decoded hf hd

/-- Settles O10: once the presented word is taken from the stream again, the state is the one before. -/
theorem presentedTableWordRunsNext : Obligations.PresentedTableWordRunsNext := by
  intro s nbits w i hf hd
  rw [step_cons (s := s.withFetchWord nbits w) rfl]
  exact runWord_decoded hf (decode_of_decodeTableWord hd)

end Sys2Proof.Machine
end

section
/-!
PROOFS. The family of 10_state.md: what the state holds, what commands keep of it (R29), and the invariant that every step
keeps. What a command and a step can do is said by `exec_next`, `exec_next_of_not_fill` and `step_next`; the proofs below
are case splits along those.
-/
namespace Sys2Proof.Machine

/-! ### What a command leaves alone -/

/-- Setting positions leaves the binding, the segments that were reset, `FAULTED` and the stream alone. -/
theorem Marks.sameBut {P : Nat → Prop} {s t : State} (h : Marks P s t) : sameBut s t := by
  rw [h.only_mem]
  exact ⟨rfl, rfl, rfl, rfl⟩

theorem Marks.responses {P : Nat → Prop} {s t : State} (h : Marks P s t) : t.responses = s.responses := by
  rw [h.only_mem]
  rfl

/-- A command changes nothing but the bitmaps and the responses. -/
theorem exec_sameBut {i : Instr} {s t : State} (h : exec i s = .next t) : sameBut s t := by
  obtain ⟨P, u, r, hmarks, rfl, -⟩ := exec_next h
  exact hmarks.sameBut

/-- No command clears a bit (10_state.md R29(b)). -/
theorem exec_keeps_bits {i : Instr} {s t : State} {seg : Half} {p : Nat} (h : exec i s = .next t) (hp : p < 65536)
    (hset : s.bitOf seg p = true) : t.bitOf seg p = true := by
  obtain ⟨P, u, r, hmarks, rfl, -⟩ := exec_next h
  exact (hmarks.bits seg p hp).mpr (.inl hset)

theorem exec_mapReady {i : Instr} {s t : State} (h : exec i s = .next t) : t.mapReady = s.mapReady := by
  obtain ⟨hbound, hzeroed, -, -⟩ := exec_sameBut h
  rw [State.mapReady, State.mapReady, hbound, hzeroed]

/-! ### FILL and QUERY on a bitmap that was reset -/

theorem exec_fill_of_ready {start len : Half} {s u : State} (hr : s.mapReady = true)
    (e : fillRange 8192 start.toNat len.toNat s = .ok u) : exec (.fill start len) s = .next (u.respond .done) := by
  rw [exec, execFill, if_pos hr, e, fillOutcome]

theorem exec_query_of_ready {start len : Half} {s : State} {h : Bool} (hr : s.mapReady = true)
    (e : queryRange 8192 start.toNat len.toNat s = .ok h) : exec (.query start len) s = .next (s.respond (.hit h)) := by
  rw [exec, execQuery, if_pos hr, e, queryOutcome]

/-- A command other than FILL completes, and all it does is respond (10_state.md R29(c)). -/
theorem exec_not_fill_responds {i : Instr} {s : State} (hr : touchesMap i = true → s.mapReady = true)
    (hi : ∀ start len, i ≠ .fill start len) : ∃ r, exec i s = .next (s.respond r) := by
  cases i with
  | padcnt start len => exact ⟨_, rfl⟩
  | smask n => exact ⟨_, rfl⟩
  | emask n => exact ⟨_, rfl⟩
  | bmask j => exact ⟨_, rfl⟩
  | fill start len => exact absurd rfl (hi start len)
  | query start len =>
    obtain ⟨h, e, -⟩ := queryRange_ok s len.toNat start.isLt.le
    exact ⟨_, exec_query_of_ready (hr rfl) e⟩

/-! ### The responses and the stream are not read -/

/-- The state with the responses `rs` given and the events `evs` still to be presented. -/
def State.withLog (s : State) (rs : List Response) (evs : List HostEvent) : State :=
  { s with responses := rs, inbox := evs }

theorem unseen_withLog (rs : List Response) (evs : List HostEvent) : Unseen fun s => s.withLog rs evs :=
  ⟨fun _ _ => rfl, fun _ _ _ => rfl⟩

/-- A command gives the same response on any earlier responses and any events still to come (10_state.md R22, R23). -/
theorem exec_withLog {i : Instr} {s t : State} (rs : List Response) (evs : List HostEvent) (h : exec i s = .next t) :
    ∃ r, t.responses = s.responses ++ [r] ∧ exec i (s.withLog rs evs) = .next (t.withLog (rs ++ [r]) evs) := by
  obtain ⟨-, -, -, -, -, hready⟩ := exec_next h
  cases i with
  | padcnt start len => cases h; exact ⟨_, rfl, rfl⟩
  | smask n => cases h; exact ⟨_, rfl, rfl⟩
  | emask n => cases h; exact ⟨_, rfl, rfl⟩
  | bmask j => cases h; exact ⟨_, rfl, rfl⟩
  | fill start len =>
    obtain ⟨u, e, hmarks⟩ := fillRange_ok s start.isLt len.isLt
    have e' := (unseen_withLog rs evs).fillRange_alike 8192 start.toNat len.toNat e
    rw [exec_fill_of_ready (hready rfl) e] at h
    cases h
    refine ⟨.done, ?_, exec_fill_of_ready (s := s.withLog rs evs) (hready rfl) e'⟩
    rw [State.respond_responses, hmarks.responses]
  | query start len =>
    obtain ⟨hit, e, -⟩ := queryRange_ok s len.toNat start.isLt.le
    have e' := ((unseen_withLog rs evs).queryRange_same s len.toNat start.isLt.le).trans e
    rw [exec_query_of_ready (hready rfl) e] at h
    cases h
    exact ⟨.hit hit, rfl, exec_query_of_ready (s := s.withLog rs evs) (hready rfl) e'⟩

/-! ### What `RESET` leaves and what the host reads -/

/-- `RESET` zeroes the bytes of the bound bitmap and leaves every other bitmap alone (70_reset_and_hazards.md R160). -/
theorem State.resetEvent_byteOf (s : State) (seg : Half) {idx : Nat} (hi : idx < 8192) :
    s.resetEvent.byteOf seg idx = if seg = s.bound then 0#8 else s.byteOf seg idx := by
  have hin : mapAddr s.bound 0 ≤ mapAddr seg idx ∧ mapAddr seg idx < mapAddr s.bound Config.segmentBytes ↔
      seg = s.bound := by
    rw [← BitVec.toNat_inj]
    simp only [mapAddr, Config.segmentBytes]
    omega
  simp only [State.byteOf, State.resetEvent_mem, Memory.read_clear, hin]
  rfl

/-- `RESET` clears bits of the bound bitmap only. -/
theorem State.resetEvent_bitOf_other {s : State} {seg : Half} {p : Nat} (hp : p < 65536) (hseg : seg ≠ s.bound) :
    s.resetEvent.bitOf seg p = s.bitOf seg p := by
  rw [State.bitOf, State.resetEvent_byteOf s seg (by omega), if_neg hseg, State.bitOf]

/-- The host reads the bytes at the indices below 8192 and no others (10_state.md R29(a), R164). -/
theorem State.hostRead_isSome_iff (s : State) (idx : Nat) :
    (s.hostRead idx).isSome = true ↔ idx < 8192 ∧ s.mapReady = true := by
  unfold State.hostRead
  split
  · rename_i h
    exact iff_of_true rfl h
  · rename_i h
    exact iff_of_false Bool.false_ne_true h

theorem State.hostRead_of_ready {s : State} {idx : Nat} (hr : s.mapReady = true) (hi : idx < 8192) :
    s.hostRead idx = some (s.mapByte idx) :=
  if_pos ⟨hi, hr⟩

@[simp] theorem State.reset_byteOf (seg : Half) (idx : Nat) : State.reset.byteOf seg idx = 0#8 := rfl

@[simp] theorem State.reset_bitOf (seg : Half) (p : Nat) : State.reset.bitOf seg p = false := by
  simp [State.bitOf_eq]

/-! ### The invariant -/

theorem exec_inv {i : Instr} {s t : State} (hs : s.Inv) (h : exec i s = .next t) : t.Inv := by
  by_cases hi : ∀ start len, i ≠ .fill start len
  · obtain ⟨r, rfl⟩ := exec_next_of_not_fill hi h
    exact hs
  · push Not at hi
    obtain ⟨start, len, rfl⟩ := hi
    obtain ⟨P, u, r, hmarks, rfl, hready⟩ := exec_next h
    exact hmarks.inv (s.mapReady_iff.mp (hready rfl)) hs

/-! ### The statements -/

/-- Settles O56, along what a step can do; only a command and `RESET` touch the memory. -/
theorem everyStepKeepsTheInvariant : Obligations.EveryStepKeepsTheInvariant := by
  intro s t hs h
  obtain ⟨-, rfl⟩ | ⟨rest, -, rfl⟩ | ⟨seg, rest, -, rfl⟩ | ⟨cw, i, rest, -, -, -, hexec⟩ := step_next h
  · exact hs
  · exact State.resetEvent_inv (s := s.withInbox rest) hs
  · exact hs
  · exact exec_inv (s := s.withInbox rest) hs hexec

/-- Settles O47: the response is all that such a command adds. -/
theorem otherCommandsChangeNothing : Obligations.OtherCommandsChangeNothing := by
  intro i s hr hi
  obtain ⟨r, h⟩ := exec_not_fill_responds hr hi
  exact ⟨r, h, fun _ => rfl⟩

/-- Settles O48, one lemma for each part of R29. -/
theorem mapInvariantsOfCommands : Obligations.MapInvariantsOfCommands := by
  intro i s t h
  refine ⟨fun idx hr => ?_, fun seg p hp => exec_keeps_bits h hp, fun hi => ?_⟩
  · rw [State.hostRead_isSome_iff, exec_mapReady h]
    exact and_iff_left hr
  · obtain ⟨r, rfl⟩ := exec_next_of_not_fill hi h
    rfl

/-- Settles O49: of what a step can do, `RESET` alone does not keep every bit, and it keeps those of other segments. -/
theorem onlyResetClearsABit : Obligations.OnlyResetClearsABit := by
  intro s t seg p hp h hset hclear
  obtain ⟨-, rfl⟩ | ⟨rest, hin, rfl⟩ | ⟨seg', rest, -, rfl⟩ | ⟨cw, i, rest, -, -, -, hexec⟩ := step_next h
  · exact absurd hset (Bool.eq_false_iff.mp hclear)
  · refine ⟨?_, rest, hin⟩
    by_contra hseg
    rw [State.resetEvent_bitOf_other (s := s.withInbox rest) hp hseg] at hclear
    exact absurd hset (Bool.eq_false_iff.mp hclear)
  · exact absurd hset (Bool.eq_false_iff.mp hclear)
  · exact absurd (exec_keeps_bits hexec hp hset) (Bool.eq_false_iff.mp hclear)

/-- Settles O50, along what a step can do. -/
theorem onlyTheEnvironmentBindsAndResets : Obligations.OnlyTheEnvironmentBindsAndResets := by
  intro s t h
  obtain ⟨-, rfl⟩ | ⟨rest, hin, rfl⟩ | ⟨seg, rest, hin, rfl⟩ | ⟨cw, i, rest, -, -, -, hexec⟩ := step_next h
  · exact ⟨absurd rfl, absurd rfl⟩
  · exact ⟨absurd rfl, fun _ => ⟨rest, hin⟩⟩
  · exact ⟨fun _ => ⟨seg, rest, hin⟩, absurd rfl⟩
  · obtain ⟨hbound, hzeroed, -, -⟩ := exec_sameBut hexec
    exact ⟨absurd hbound, absurd hzeroed⟩

/-- Settles O54: the engines see neither the responses nor the stream. -/
theorem responsesAndInboxAreNotRead : Obligations.ResponsesAndInboxAreNotRead :=
  fun _ _ _ rs evs h => exec_withLog rs evs h

/-- Settles O13: the step performs the `BIND` on the state without that event. -/
theorem bindEventKeepsEveryMap : Obligations.BindEventKeepsEveryMap := by
  intro s seg rest hin
  exact ⟨(s.withInbox rest).bindEvent seg, step_cons hin, rfl, rfl, rfl, rfl, rfl, rfl⟩

/-- Settles O15: no byte is listed, and an unlisted byte is 0x00 (10_state.md R30). -/
theorem resetStateIsZeroed : Obligations.ResetStateIsZeroed := by
  have hready : State.reset.mapReady = true := by decide
  refine ⟨fun idx hi => ⟨State.reset_byteOf _ idx, ?_⟩, fun p _ => State.reset_bitOf _ p, rfl, hready⟩
  rw [State.hostRead_of_ready hready hi, State.mapByte, State.reset_byteOf]

/-- Settles O55: there is no listed byte, and one segment was reset. -/
theorem resetMeetsTheInvariant : Obligations.ResetMeetsTheInvariant :=
  ⟨⟨.nil, by simp [State.reset]⟩, by simp [State.cellsInZeroed, State.reset], List.nodup_singleton _⟩

end Sys2Proof.Machine
end

section
/-!
PROOFS. The family of 20_memory.md: the bit order, the byte indices of a pass, the union of a list of FILLs, and the
independence of the segments. FILL is described once by the positions it marks (`exec_fill_marks`) and QUERY by the
position it looks for (`exec_query_answers`); the byte indices of a pass are one interval (`mem_touched`).
-/
namespace Sys2Proof.Machine

/-! ### Bits and bytes of the bound bitmap (R41) -/

/-- The bit at offset `j` of byte `idx`, most significant bit first (20_memory.md R41). -/
theorem State.bit_at (s : State) (idx : Nat) {j : Nat} (hj : j < 8) :
    s.bit (8 * idx + j) = (s.mapByte idx).getLsbD (7 - j) := by
  rw [State.bit, State.bitOf_eq, show (8 * idx + j) / 8 = idx by omega, show (8 * idx + j) % 8 = j by omega]
  rfl

theorem State.mapByte_eq_of_bit_eq {s t : State} {idx : Nat} (h : ∀ j < 8, s.bit (8 * idx + j) = t.bit (8 * idx + j)) :
    s.mapByte idx = t.mapByte idx := by
  apply byte_ext
  intro j hj
  rw [← s.bit_at idx hj, ← t.bit_at idx hj, h j hj]

theorem State.bit_eq_of_mapByte_eq {s t : State} (h : ∀ idx < 8192, t.mapByte idx = s.mapByte idx) {p : Nat}
    (hp : p < 65536) : t.bit p = s.bit p :=
  congrArg (fun b => anyUnder b (positionMask p)) (h (p / 8) (by omega))

theorem positionMask_eq_shift (p : Nat) : positionMask p = 0x80#8 >>> (p % 8) := by
  rw [positionMask, bitMask, BitVec.toNat_ofNat, Nat.mod_mod_of_dvd p (by decide)]

theorem shift_and_one_iff (b : Byte) (k : Nat) : (b >>> k) &&& 1#8 = 1#8 ↔ b.getLsbD k = true := by
  rw [BitVec.and_one_eq_setWidth_ofBool_getLsbD, BitVec.getLsbD_ushiftRight, Nat.add_zero]
  cases b.getLsbD k <;> decide

/-- The bound bitmap after positions were set. -/
theorem Marks.bit {P : Nat → Prop} {s t : State} (h : Marks P s t) {p : Nat} (hp : p < 65536) :
    t.bit p = true ↔ s.bit p = true ∨ P p := by
  rw [State.bit, h.bound, h.bits s.bound p hp]
  exact or_congr_right (and_iff_right rfl)

/-- A byte after positions were set: the old one with the mask of those of its positions OR-ed in. -/
theorem Marks.mapByte_or {P : Nat → Prop} {s t : State} (h : Marks P s t) {idx : Nat} (hi : idx < 8192) {m : Byte}
    (hm : ∀ j < 8, (m.getLsbD (7 - j) = true ↔ P (8 * idx + j))) : t.mapByte idx = s.mapByte idx ||| m := by
  apply byte_ext
  intro j hj
  rw [← t.bit_at idx hj, Bool.eq_iff_iff, h.bit (by omega), BitVec.getLsbD_or, Bool.or_eq_true, hm j hj,
    s.bit_at idx hj]

/-- Setting the same positions of equal bitmaps leaves equal bitmaps, whatever the other bitmaps hold. -/
theorem Marks.mapByte_same {P : Nat → Prop} {s t s' t' : State} (hs : Marks P s s') (ht : Marks P t t')
    (h : ∀ idx < 8192, t.mapByte idx = s.mapByte idx) : ∀ idx < 8192, t'.mapByte idx = s'.mapByte idx := by
  intro idx hi
  apply State.mapByte_eq_of_bit_eq
  intro j hj
  have hp : 8 * idx + j < 65536 := by omega
  rw [Bool.eq_iff_iff, ht.bit hp, hs.bit hp, State.bit_eq_of_mapByte_eq h hp]

/-! ### FILL and QUERY in positions -/

/-- `S(start, len)` is an interval, or an interval and its wrapped tail (42_fill.md R107). -/
theorem inFillSet_iff {start len p : Nat} (hs : start < 65536) (hl : len < 65536) (hp : p < 65536) :
    inFillSet start len p ↔ (start ≤ p ∧ p < start + len) ∨ p + 65536 < start + len := by
  constructor
  · rintro ⟨k, hk, rfl⟩
    omega
  · rintro (h | h)
    · exact ⟨p - start, by omega, by omega⟩
    · exact ⟨p + 65536 - start, by omega, by omega⟩

/-- FILL completes on a bitmap that was reset and sets the positions of `S(start, len)` (42_fill.md R107). -/
theorem exec_fill_marks (start len : Half) {s : State} (hr : s.mapReady = true) :
    ∃ u, exec (.fill start len) s = .next (u.respond .done) ∧ Marks (inFillSet start.toNat len.toNat) s u := by
  obtain ⟨u, e, hmarks⟩ := fillRange_ok s start.isLt len.isLt
  exact ⟨u, exec_fill_of_ready hr e, hmarks.congr fun p hp => (inFillSet_iff start.isLt len.isLt hp).symm⟩

/-- QUERY completes on a bitmap that was reset and answers whether a position of the truncated range is set
(43_query.md R125). -/
theorem exec_query_answers (start len : Half) {s : State} (hr : s.mapReady = true) :
    ∃ h, exec (.query start len) s = .next (s.respond (.hit h)) ∧
      (h = true ↔ ∃ p, start.toNat ≤ p ∧ p < start.toNat + len.toNat ∧ p < 65536 ∧ s.bit p = true) := by
  obtain ⟨h, e, hh⟩ := queryRange_ok s len.toNat start.isLt.le
  refine ⟨h, exec_query_of_ready hr e, hh.trans (exists_congr fun p => ?_)⟩
  rw [workingLen_eq start.isLt.le, ← and_assoc, ← and_assoc]
  exact and_congr_left fun _ => by omega

theorem execAll_cons_of_next {i : Instr} {is : List Instr} {s t : State} (h : exec i s = .next t) :
    execAll (i :: is) s = execAll is t := by
  rw [execAll, h]

/-- A list of FILLs completes, and what is set after it is what was set before and the positions of each (42_fill.md
R111). -/
theorem execAll_fills (fills : List (Half × Half)) {s : State} (hr : s.mapReady = true) :
    ∃ t, execAll (fills.map fun f => .fill f.1 f.2) s = .next t ∧ t.mapReady = true ∧
      ∀ p < 65536, (t.bit p = true ↔ s.bit p = true ∨ ∃ f ∈ fills, inFillSet f.1.toNat f.2.toNat p) := by
  induction fills generalizing s with
  | nil => exact ⟨s, rfl, hr, fun p _ => by simp⟩
  | cons f fills ih =>
    obtain ⟨u, e, hmarks⟩ := exec_fill_marks f.1 f.2 hr
    obtain ⟨t, et, htr, ht⟩ := ih ((exec_mapReady e).trans hr)
    refine ⟨t, (execAll_cons_of_next e).trans et, htr, fun p hp => ?_⟩
    rw [ht p hp, State.respond_bit, hmarks.bit hp, or_assoc, List.exists_mem_cons_iff]

/-! ### The byte indices of a pass (R45, R46) -/

/-- The bytes that a pass accesses are those from that of its first position to that of its last. -/
theorem mem_touched {start len idx : Nat} :
    idx ∈ touched start len ↔ 0 < len ∧ start / 8 ≤ idx ∧ idx ≤ (start + len - 1) / 8 := by
  obtain ⟨hsum, htrail, hlead, -, haligned, hempty⟩ := padCounts_shape start len
  simp only [touched, targetByte, fullBase, trailIndex, List.mem_append, List.mem_replicate, List.mem_range'_1,
    List.mem_ite_nil_right, List.mem_singleton]
  generalize padCounts start len = c at *
  split <;> omega

theorem touched_ascending (start len : Nat) : (touched start len).Pairwise (· ≤ ·) := by
  simp only [touched, trailIndex, List.pairwise_append, List.mem_append, List.mem_replicate, List.mem_range'_1,
    List.mem_ite_nil_right, List.mem_singleton]
  have hbase : targetByte start ≤ fullBase start (padCounts start len) := Nat.le_add_right _ _
  refine ⟨⟨List.pairwise_replicate.mpr (.inr le_rfl), List.pairwise_le_range', ?_⟩, ?_, ?_⟩
  · omega
  · split <;> simp
  · omega

/-- A FILL pass completes exactly when it is empty or its last byte is in the buffer. -/
theorem fillPass_completes_iff {cap start len : Nat} (s : State) (h : start + len ≤ 65536) :
    (∃ t, fillPass cap start len s = .ok t) ↔ len = 0 ∨ (start + len - 1) / 8 < cap := by
  constructor
  · rintro ⟨t, e⟩
    by_contra hn
    obtain ⟨u, e', -⟩ := fillPass_error (cap := cap) (start := start) (len := len) s h (by omega) (by omega)
    rw [e] at e'
    cases e'
  · intro hc
    obtain ⟨t, e, -⟩ := fillPass_ok s h hc
    exact ⟨t, e⟩

/-! ### Other bitmaps (R52) -/

/-- A command leaves every bitmap but the bound one alone. -/
theorem exec_byteOf_other {i : Instr} {s t : State} {seg : Half} {idx : Nat} (h : exec i s = .next t)
    (hseg : seg ≠ s.bound) (hi : idx < 8192) : t.byteOf seg idx = s.byteOf seg idx := by
  obtain ⟨P, u, r, hmarks, rfl, -⟩ := exec_next h
  exact hmarks.byteOf hi fun heq => absurd heq hseg

/-- On a machine with the same bound bitmap a command completes with the same response and the same bound bitmap. -/
theorem exec_sees_bound_map_only {i : Instr} {s t s' : State} (h : exec i s = .next s') (htr : t.mapReady = true)
    (hmap : ∀ idx < 8192, t.mapByte idx = s.mapByte idx) :
    ∃ t' r, exec i t = .next t' ∧ s'.responses = s.responses ++ [r] ∧ t'.responses = t.responses ++ [r] ∧
      ∀ idx < 8192, t'.mapByte idx = s'.mapByte idx := by
  obtain ⟨-, -, -, -, -, hready⟩ := exec_next h
  cases i with
  | padcnt start len => cases h; exact ⟨_, _, rfl, rfl, rfl, hmap⟩
  | smask n => cases h; exact ⟨_, _, rfl, rfl, rfl, hmap⟩
  | emask n => cases h; exact ⟨_, _, rfl, rfl, rfl, hmap⟩
  | bmask j => cases h; exact ⟨_, _, rfl, rfl, rfl, hmap⟩
  | fill start len =>
    obtain ⟨u, e, hmarks⟩ := exec_fill_marks start len (hready rfl)
    obtain ⟨v, e', hmarks'⟩ := exec_fill_marks start len htr
    rw [e] at h
    cases h
    refine ⟨_, .done, e', ?_, ?_, (hmarks.mapByte_same hmarks' hmap :)⟩
    · rw [State.respond_responses, hmarks.responses]
    · rw [State.respond_responses, hmarks'.responses]
  | query start len =>
    obtain ⟨a, e, ha⟩ := exec_query_answers start len (hready rfl)
    obtain ⟨b, e', hb⟩ := exec_query_answers start len htr
    rw [e] at h
    cases h
    have hsame : b = a := by
      rw [Bool.eq_iff_iff, ha, hb]
      refine exists_congr fun p => and_congr_right fun _ => and_congr_right fun _ => and_congr_right fun hp => ?_
      rw [State.bit_eq_of_mapByte_eq hmap hp]
    subst hsame
    exact ⟨_, _, e', rfl, rfl, hmap⟩

/-! ### The statements -/

/-- Settles O27: the one position that `FILL p, 1` sets has the mask `0x80 >> (p mod 8)` in its byte. -/
theorem bitOrderIsMsbFirst : Obligations.BitOrderIsMsbFirst := by
  intro s p
  refine ⟨?_, fun hr => ?_⟩
  · rw [shift_and_one_iff, State.bit, State.bitOf_eq]
    rfl
  · have hlt := p.isLt
    obtain ⟨u, e, hfill⟩ := exec_fill_marks p 1#16 hr
    have hmarks : Marks (· = p.toNat) s u := hfill.congr fun q hq => by
      rw [inFillSet_iff p.isLt (by decide) hq]
      simp only [BitVec.toNat_ofNat]
      omega
    refine ⟨_, e, ?_, fun idx hi hne => ?_⟩
    · rw [State.respond_mapByte, ← positionMask_eq_shift]
      refine hmarks.mapByte_or (by omega) fun j hj => ?_
      rw [← positionMask_mod, positionMask_bit (Nat.mod_lt _ (by decide)) hj, decide_eq_true_eq]
      omega
    · rw [State.respond_mapByte, hmarks.mapByte_or hi (m := 0#8), BitVec.or_zero]
      intro j hj
      rw [BitVec.getLsbD_zero]
      exact iff_of_false Bool.false_ne_true (by omega)

/-- Settles O28: the indices are the interval of `mem_touched`, and its last one decides whether the pass completes. -/
theorem touchedBytesAreThoseOfTheRange : Obligations.TouchedBytesAreThoseOfTheRange := by
  intro start len h
  refine ⟨fun idx => ?_, touched_ascending start len, fun cap s => ?_⟩
  · rw [mem_touched]
    constructor
    · intro hidx
      exact ⟨max start (8 * idx), by omega⟩
    · rintro ⟨p, hp⟩
      omega
  · rw [fillPass_completes_iff s h]
    constructor
    · intro hc idx hidx
      rw [mem_touched] at hidx
      omega
    · intro hall
      rcases Nat.eq_zero_or_pos len with h0 | h0
      · exact .inl h0
      · exact .inr (hall _ (mem_touched.mpr (by omega)))

/-- Settles O29: no index passes the byte of the last position, which the truncation keeps below 0x10000. -/
theorem everyIndexIsInTheMap : Obligations.EveryIndexIsInTheMap := by
  intro start len
  have hstart := start.isLt
  have hlen := len.isLt
  simp only [mem_touched, workingLen_eq hstart.le, remainder_eq]
  refine ⟨fun idx h => ?_, ?_, fun idx h => ?_⟩ <;> omega

/-- Settles O43: the closed form of QUERY on what the FILLs have left. -/
theorem queryAfterFillsSeesTheirUnion : Obligations.QueryAfterFillsSeesTheirUnion := by
  intro fills start len s hr
  obtain ⟨t, et, htr, ht⟩ := execAll_fills fills hr
  obtain ⟨h, e, hh⟩ := exec_query_answers start len htr
  refine ⟨t, h, et, e, hh.trans (exists_congr fun p => ?_)⟩
  exact and_congr_right fun _ => and_congr_right fun _ => and_congr_right fun hp => ht p hp

/-- Settles O53: the frame of a command, and that it reads the bound bitmap alone. -/
theorem segmentsAreIndependent : Obligations.SegmentsAreIndependent :=
  fun _ _ _ _ h htr _ hmap => ⟨fun _ hseg _ hi => exec_byteOf_other h hseg hi, exec_sees_bound_map_only h htr hmap⟩

end Sys2Proof.Machine
end

section
/-!
PROOFS. The family of 30_encoding.md. `Spells cw i` says in fields of the word (R61, R62) that `cw` is the word of the command
`i`; decoding to `i`, being the encoding of `i`, and selecting the row of `i` in the decode table (R63) are each compared with
it, once.
-/
namespace Sys2Proof

/-! ### Fields and must-be-zero bits of a word -/

/-- The word of given fields is the word that has them. -/
theorem wordOf_eq_iff {op : BitVec 3} {a b : Half} {cw : CommandWord} :
    wordOf op a b = cw ↔ (fieldsOf cw).op = op ∧ (fieldsOf cw).a = a ∧ (fieldsOf cw).b = b := by
  constructor
  · rintro rfl
    rw [fieldsOf_wordOf]
    exact ⟨rfl, rfl, rfl⟩
  · rintro ⟨rfl, rfl, rfl⟩
    exact wordOf_fieldsOf cw

theorem op_bit (cw : CommandWord) {j : Nat} (hj : j < 3) : (fieldsOf cw).op.getLsbD j = cw.getLsbD (32 + j) := by
  simp [fieldsOf, hj]

/-- A field of a word is zero exactly when each of its bits is. -/
theorem extractLsb'_eq_zero_iff {w : Nat} (x : BitVec w) (k m : Nat) :
    x.extractLsb' k m = 0#m ↔ ∀ j, k ≤ j → j < k + m → x.getLsbD j = false := by
  constructor
  · intro h j hk hm
    have hbit : (x.extractLsb' k m).getLsbD (j - k) = false := by rw [h, BitVec.getLsbD_zero]
    rwa [BitVec.getLsbD_extractLsb', decide_eq_true (by omega), Bool.true_and, Nat.add_sub_cancel' hk] at hbit
  · intro h
    apply BitVec.eq_of_getLsbD_eq
    intro j hj
    rw [BitVec.getLsbD_extractLsb', h (k + j) (by omega) (by omega), Bool.and_false, BitVec.getLsbD_zero]

/-- The word of an operand of `k` bits has that operand in its low bits and zeros from there up to `op` (R62). -/
theorem wordOf_short_eq_iff {k m : Nat} (hk : k ≤ 16) (hkm : k + m = 32) {op : BitVec 3} {x : BitVec k}
    {cw : CommandWord} : wordOf op 0#16 (x.setWidth 16) = cw ↔
      (fieldsOf cw).op = op ∧ cw.extractLsb' k m = 0#m ∧ cw.extractLsb' 0 k = x := by
  constructor
  · rintro rfl
    refine ⟨congrArg CommandFields.op (fieldsOf_wordOf ..), (extractLsb'_eq_zero_iff ..).mpr fun j hj hjm => ?_, ?_⟩
    · rw [wordOf_bit, BitVec.getLsbD_setWidth, BitVec.getLsbD_of_ge x j hj]
      simp [show j < 32 by omega]
    · apply BitVec.eq_of_getLsbD_eq
      intro j hj
      simp [wordOf_bit, hj, show j < 16 by omega]
  · rintro ⟨rfl, hz, rfl⟩
    rw [extractLsb'_eq_zero_iff] at hz
    rw [wordOf_eq_iff]
    refine ⟨rfl, ?_, ?_⟩ <;> apply BitVec.eq_of_getLsbD_eq <;> intro j hj
    · simpa [fieldsOf, hj] using hz (16 + j) (by omega) (by omega)
    · by_cases hjk : j < k
      · simp [fieldsOf, hj, hjk]
      · simpa [fieldsOf, hj, hjk] using hz j (by omega) (by omega)

/-! ### The command that a word spells -/

/-- `cw` is the word of the command: `op` is its code, its operands are the fields that hold them, and the bits that are in no
field are zero (30_encoding.md R61, R62). -/
def Spells (cw : CommandWord) : Instr → Prop
  | .padcnt start len => (fieldsOf cw).op = 0#3 ∧ (fieldsOf cw).a = start ∧ (fieldsOf cw).b = len
  | .smask n => (fieldsOf cw).op = 1#3 ∧ cw.extractLsb' 8 24 = 0#24 ∧ cw.extractLsb' 0 8 = n
  | .emask n => (fieldsOf cw).op = 2#3 ∧ cw.extractLsb' 8 24 = 0#24 ∧ cw.extractLsb' 0 8 = n
  | .bmask j => (fieldsOf cw).op = 3#3 ∧ cw.extractLsb' 3 29 = 0#29 ∧ cw.extractLsb' 0 3 = j
  | .fill start len => (fieldsOf cw).op = 4#3 ∧ (fieldsOf cw).a = start ∧ (fieldsOf cw).b = len
  | .query start len => (fieldsOf cw).op = 5#3 ∧ (fieldsOf cw).a = start ∧ (fieldsOf cw).b = len

theorem encode_eq_iff {i : Instr} {cw : CommandWord} : encode i = cw ↔ Spells cw i := by
  cases i with
  | padcnt start len => exact wordOf_eq_iff
  | smask n => exact wordOf_short_eq_iff (by decide) (by decide)
  | emask n => exact wordOf_short_eq_iff (by decide) (by decide)
  | bmask j => exact wordOf_short_eq_iff (by decide) (by decide)
  | fill start len => exact wordOf_eq_iff
  | query start len => exact wordOf_eq_iff

/-! ### Decoding, one equation for each `op` -/

section DecodeOp
variable {cw : CommandWord}

theorem decode_op0 (h : (fieldsOf cw).op = 0#3) : decode cw = .ok (.padcnt (fieldsOf cw).a (fieldsOf cw).b) := by
  simp [decode, h]

theorem decode_op1 (h : (fieldsOf cw).op = 1#3) : decode cw =
    if cw.extractLsb' 8 24 = 0#24 then .ok (.smask (cw.extractLsb' 0 8)) else .error (.mustBeZero 1#3) := by
  simp [decode, h]

theorem decode_op2 (h : (fieldsOf cw).op = 2#3) : decode cw =
    if cw.extractLsb' 8 24 = 0#24 then .ok (.emask (cw.extractLsb' 0 8)) else .error (.mustBeZero 2#3) := by
  simp [decode, h]

theorem decode_op3 (h : (fieldsOf cw).op = 3#3) : decode cw =
    if cw.extractLsb' 3 29 = 0#29 then .ok (.bmask (cw.extractLsb' 0 3)) else .error (.mustBeZero 3#3) := by
  simp [decode, h]

theorem decode_op4 (h : (fieldsOf cw).op = 4#3) : decode cw = .ok (.fill (fieldsOf cw).a (fieldsOf cw).b) := by
  simp [decode, h]

theorem decode_op5 (h : (fieldsOf cw).op = 5#3) : decode cw = .ok (.query (fieldsOf cw).a (fieldsOf cw).b) := by
  simp [decode, h]

theorem decode_op6 (h : (fieldsOf cw).op = 6#3) : decode cw = .error (.unassignedOp 6#3) := by
  simp [decode, h]

theorem decode_op7 (h : (fieldsOf cw).op = 7#3) : decode cw = .error (.unassignedOp 7#3) := by
  simp [decode, h]

end DecodeOp

section Guarded
variable {ε α : Type} {c : Prop} [Decidable c] {a b : α} {e : ε}

theorem ite_error_eq_ok_iff : (if c then .ok a else .error e : Except ε α) = .ok b ↔ c ∧ a = b := by
  by_cases hc : c <;> simp [hc]

theorem exists_ite_error_eq_error_iff : (∃ why, (if c then .ok a else .error e : Except ε α) = .error why) ↔ ¬c := by
  by_cases hc : c <;> simp [hc]

end Guarded

theorem op_cases : ∀ op : BitVec 3,
    op = 0#3 ∨ op = 1#3 ∨ op = 2#3 ∨ op = 3#3 ∨ op = 4#3 ∨ op = 5#3 ∨ op = 6#3 ∨ op = 7#3 := by
  decide

/-- A word that spells a command decodes to it. -/
theorem decode_of_spells {cw : CommandWord} {i : Instr} (h : Spells cw i) : decode cw = .ok i := by
  cases i with
  | padcnt start len => obtain ⟨hop, rfl, rfl⟩ := h; exact decode_op0 hop
  | smask n => obtain ⟨hop, hz, rfl⟩ := h; rw [decode_op1 hop, if_pos hz]
  | emask n => obtain ⟨hop, hz, rfl⟩ := h; rw [decode_op2 hop, if_pos hz]
  | bmask j => obtain ⟨hop, hz, rfl⟩ := h; rw [decode_op3 hop, if_pos hz]
  | fill start len => obtain ⟨hop, rfl, rfl⟩ := h; exact decode_op4 hop
  | query start len => obtain ⟨hop, rfl, rfl⟩ := h; exact decode_op5 hop

theorem spells_of_decode {cw : CommandWord} {i : Instr} (h : decode cw = .ok i) : Spells cw i := by
  obtain hop | hop | hop | hop | hop | hop | hop | hop := op_cases (fieldsOf cw).op
  · rw [decode_op0 hop] at h
    cases h
    exact ⟨hop, rfl, rfl⟩
  · rw [decode_op1 hop] at h
    obtain ⟨hz, rfl⟩ := ite_error_eq_ok_iff.mp h
    exact ⟨hop, hz, rfl⟩
  · rw [decode_op2 hop] at h
    obtain ⟨hz, rfl⟩ := ite_error_eq_ok_iff.mp h
    exact ⟨hop, hz, rfl⟩
  · rw [decode_op3 hop] at h
    obtain ⟨hz, rfl⟩ := ite_error_eq_ok_iff.mp h
    exact ⟨hop, hz, rfl⟩
  · rw [decode_op4 hop] at h
    cases h
    exact ⟨hop, rfl, rfl⟩
  · rw [decode_op5 hop] at h
    cases h
    exact ⟨hop, rfl, rfl⟩
  · rw [decode_op6 hop] at h
    cases h
  · rw [decode_op7 hop] at h
    cases h

/-- Decoding and encoding are inverse: a word decodes to a command exactly when it is its encoding. -/
theorem decode_eq_ok_iff {cw : CommandWord} {i : Instr} : decode cw = .ok i ↔ encode i = cw := by
  rw [encode_eq_iff]
  exact ⟨spells_of_decode, decode_of_spells⟩

theorem encode_injective : Function.Injective encode := by
  intro i j h
  have hi : decode (encode j) = .ok i := decode_eq_ok_iff.mpr h
  rw [decode_eq_ok_iff.mpr rfl] at hi
  exact (Except.ok.inj hi).symm

/-- The words that do not decode are the reserved words of R65. -/
theorem decode_error_iff (cw : CommandWord) : (∃ why, decode cw = .error why) ↔
    ((fieldsOf cw).op = 6#3 ∨ (fieldsOf cw).op = 7#3) ∨
    (((fieldsOf cw).op = 1#3 ∨ (fieldsOf cw).op = 2#3) ∧ cw.extractLsb' 8 24 ≠ 0#24) ∨
    ((fieldsOf cw).op = 3#3 ∧ cw.extractLsb' 3 29 ≠ 0#29) := by
  obtain hop | hop | hop | hop | hop | hop | hop | hop := op_cases (fieldsOf cw).op
  · simp [hop, decode_op0 hop]
  · simp [hop, decode_op1 hop, exists_ite_error_eq_error_iff]
  · simp [hop, decode_op2 hop, exists_ite_error_eq_error_iff]
  · simp [hop, decode_op3 hop, exists_ite_error_eq_error_iff]
  · simp [hop, decode_op4 hop]
  · simp [hop, decode_op5 hop]
  · simp [hop, decode_op6 hop]
  · simp [hop, decode_op7 hop]

/-! ### The decode table (R63) -/

/-- The row of a code `op` whose operands take the `k` low bits, with zeros from there up to `op` (R62, R63). -/
def tableRow (name : String) (op : BitVec 3) (k : Nat) : OpcodeRow :=
  ⟨name, BitVec.allOnes 35 <<< k, wordOf op 0#16 0#16⟩

theorem opcodeRows_eq : opcodeRows =
    [tableRow "PADCNT" 0#3 32, tableRow "SMASK" 1#3 8, tableRow "EMASK" 2#3 8, tableRow "BMASK" 3#3 3,
      tableRow "FILL" 4#3 32, tableRow "QUERY" 5#3 32] := by
  decide

theorem and_mask_bit (cw : CommandWord) (k : Nat) {j : Nat} (hj : j < 35) :
    (cw &&& (BitVec.allOnes 35 <<< k)).getLsbD j = (decide (k ≤ j) && cw.getLsbD j) := by
  rw [BitVec.getLsbD_and, BitVec.getLsbD_shiftLeft, BitVec.getLsbD_allOnes, decide_eq_true hj,
    decide_eq_true (show j - k < 35 by omega), Bool.true_and, Bool.and_true, Bool.and_comm, ← decide_not]
  simp only [Nat.not_lt]

theorem wordOf_op_bit (op : BitVec 3) (j : Nat) :
    (wordOf op 0#16 0#16).getLsbD j = (decide (32 ≤ j) && op.getLsbD (j - 32)) := by
  rw [wordOf_bit]
  by_cases hj : j < 32
  · simp [hj]
  · simp [hj, show ¬j < 16 by omega, Nat.le_of_not_lt hj]

/-- A row selects the words of its `op` with zeros from bit `k` up to `op`. -/
theorem selects_tableRow {k m : Nat} (hkm : k + m = 32) {name : String} {op : BitVec 3} {cw : CommandWord} :
    selects cw (tableRow name op k) = true ↔ (fieldsOf cw).op = op ∧ cw.extractLsb' k m = 0#m := by
  rw [selects, beq_iff_eq, extractLsb'_eq_zero_iff]
  constructor
  · intro h
    have hbit (j : Nat) (hj : j < 35) : (decide (32 ≤ j) && op.getLsbD (j - 32)) = (decide (k ≤ j) && cw.getLsbD j) := by
      rw [← wordOf_op_bit, ← and_mask_bit cw k hj]
      exact congrArg (BitVec.getLsbD · j) h.symm
    refine ⟨BitVec.eq_of_getLsbD_eq fun j hj => ?_, fun j hj hjm => ?_⟩
    · simpa [op_bit cw hj, show k ≤ 32 + j by omega] using (hbit (32 + j) (by omega)).symm
    · simpa [hj, show ¬32 ≤ j by omega] using (hbit j (by omega)).symm
  · rintro ⟨rfl, hz⟩
    apply BitVec.eq_of_getLsbD_eq
    intro j hj
    refine (and_mask_bit cw k hj).trans (.trans ?_ (wordOf_op_bit _ j).symm)
    by_cases hop : 32 ≤ j
    · simp [op_bit cw (show j - 32 < 3 by omega), hop, show k ≤ j by omega]
    · by_cases hkj : k ≤ j
      · simp [hop, hz j hkj (by omega)]
      · simp [hop, hkj]

/-- The rows whose operands fill the word select by `op` alone. -/
theorem selects_tableRow_full {name : String} {op : BitVec 3} {cw : CommandWord} :
    selects cw (tableRow name op 32) = true ↔ (fieldsOf cw).op = op :=
  (selects_tableRow (m := 0) rfl).trans (and_iff_left (Subsingleton.elim _ _))

theorem selects_of_spells {cw : CommandWord} {i : Instr} (h : Spells cw i) :
    ∃ r ∈ opcodeRows, r.mnemonic = mnemonicOf i ∧ selects cw r = true := by
  cases i with
  | padcnt start len =>
    obtain ⟨hop, -, -⟩ := h
    exact ⟨tableRow "PADCNT" 0#3 32, by decide, rfl, selects_tableRow_full.mpr hop⟩
  | smask n =>
    obtain ⟨hop, hz, -⟩ := h
    exact ⟨tableRow "SMASK" 1#3 8, by decide, rfl, (selects_tableRow rfl).mpr ⟨hop, hz⟩⟩
  | emask n =>
    obtain ⟨hop, hz, -⟩ := h
    exact ⟨tableRow "EMASK" 2#3 8, by decide, rfl, (selects_tableRow rfl).mpr ⟨hop, hz⟩⟩
  | bmask j =>
    obtain ⟨hop, hz, -⟩ := h
    exact ⟨tableRow "BMASK" 3#3 3, by decide, rfl, (selects_tableRow rfl).mpr ⟨hop, hz⟩⟩
  | fill start len =>
    obtain ⟨hop, -, -⟩ := h
    exact ⟨tableRow "FILL" 4#3 32, by decide, rfl, selects_tableRow_full.mpr hop⟩
  | query start len =>
    obtain ⟨hop, -, -⟩ := h
    exact ⟨tableRow "QUERY" 5#3 32, by decide, rfl, selects_tableRow_full.mpr hop⟩

theorem spells_of_selects {cw : CommandWord} {r : OpcodeRow} (hr : r ∈ opcodeRows) (h : selects cw r = true) :
    ∃ i, Spells cw i ∧ mnemonicOf i = r.mnemonic := by
  simp only [opcodeRows_eq, List.mem_cons, List.not_mem_nil, or_false] at hr
  obtain rfl | rfl | rfl | rfl | rfl | rfl := hr
  · exact ⟨.padcnt _ _, ⟨selects_tableRow_full.mp h, rfl, rfl⟩, rfl⟩
  · obtain ⟨hop, hz⟩ := (selects_tableRow (m := 24) rfl).mp h
    exact ⟨.smask _, ⟨hop, hz, rfl⟩, rfl⟩
  · obtain ⟨hop, hz⟩ := (selects_tableRow (m := 24) rfl).mp h
    exact ⟨.emask _, ⟨hop, hz, rfl⟩, rfl⟩
  · obtain ⟨hop, hz⟩ := (selects_tableRow (m := 29) rfl).mp h
    exact ⟨.bmask _, ⟨hop, hz, rfl⟩, rfl⟩
  · exact ⟨.fill _ _, ⟨selects_tableRow_full.mp h, rfl, rfl⟩, rfl⟩
  · exact ⟨.query _ _, ⟨selects_tableRow_full.mp h, rfl, rfl⟩, rfl⟩

/-- A word that selects a row decodes to a command of that row. -/
theorem decode_of_selects {cw : CommandWord} {r : OpcodeRow} (hr : r ∈ opcodeRows) (h : selects cw r = true) :
    ∃ i, decode cw = .ok i ∧ mnemonicOf i = r.mnemonic := by
  obtain ⟨i, hi, hname⟩ := spells_of_selects hr h
  exact ⟨i, decode_of_spells hi, hname⟩

/-- No two rows have the same mnemonic. -/
theorem row_eq_of_mnemonic_eq : ∀ r ∈ opcodeRows, ∀ r' ∈ opcodeRows, r.mnemonic = r'.mnemonic → r = r' := by
  decide

/-! ### The number of commands -/

/-- A command is its row and its operands. -/
def instrEquiv : Instr ≃ (Half × Half) ⊕ Byte ⊕ Byte ⊕ BitVec 3 ⊕ (Half × Half) ⊕ (Half × Half) where
  toFun
    | .padcnt start len => .inl (start, len)
    | .smask n => .inr (.inl n)
    | .emask n => .inr (.inr (.inl n))
    | .bmask j => .inr (.inr (.inr (.inl j)))
    | .fill start len => .inr (.inr (.inr (.inr (.inl (start, len)))))
    | .query start len => .inr (.inr (.inr (.inr (.inr (start, len)))))
  invFun
    | .inl (start, len) => .padcnt start len
    | .inr (.inl n) => .smask n
    | .inr (.inr (.inl n)) => .emask n
    | .inr (.inr (.inr (.inl j))) => .bmask j
    | .inr (.inr (.inr (.inr (.inl (start, len))))) => .fill start len
    | .inr (.inr (.inr (.inr (.inr (start, len))))) => .query start len
  left_inv i := by cases i <;> rfl
  right_inv x := by obtain x | x | x | x | x | x := x <;> rfl

theorem card_bitVec (w : Nat) : Nat.card (BitVec w) = 2 ^ w :=
  (Nat.card_congr BitVec.equivFin.toEquiv).trans (Nat.card_fin _)

theorem card_instr : Nat.card Instr = 3 * 2 ^ 32 + 2 * 256 + 8 := by
  rw [Nat.card_congr instrEquiv]
  simp only [Nat.card_sum, Nat.card_prod, card_bitVec]
  decide

end Sys2Proof

namespace Sys2Proof.Machine

/-! ### The response word (R64) -/

theorem counts_word_fields (l f t : Half) : (Response.counts l f t).word.extractLsb' 32 16 = l ∧
    (Response.counts l f t).word.extractLsb' 16 16 = f ∧ (Response.counts l f t).word.extractLsb' 0 16 = t := by
  have hlow : (Response.counts l f t).word.extractLsb' 0 16 = t := BitVec.extractLsb'_append_eq_right
  have hhigh (k : Nat) (hk : 16 ≤ k) :
      (Response.counts l f t).word.extractLsb' k 16 = (l ++ f).extractLsb' (k - 16) 16 :=
    BitVec.extractLsb'_append_eq_of_le hk
  rw [hhigh 32 (by decide), hhigh 16 (by decide)]
  exact ⟨BitVec.extractLsb'_append_eq_left, BitVec.extractLsb'_append_eq_right, hlow⟩

/-- A value put into the low bits of the response word is there, with zeros above it. -/
theorem setWidth_fields {w : Nat} (x : BitVec w) {m : Nat} (h : w + m = 48) :
    (x.setWidth 48).extractLsb' 0 w = x ∧ (x.setWidth 48).extractLsb' w m = 0#m := by
  refine ⟨?_, (extractLsb'_eq_zero_iff ..).mpr fun j hj hjm => ?_⟩
  · rw [BitVec.extractLsb'_setWidth_of_le (by omega), BitVec.extractLsb'_eq_self]
  · rw [BitVec.getLsbD_setWidth, BitVec.getLsbD_of_ge x j hj, Bool.and_false]

/-- The result is of the kind that the command answers (30_encoding.md R64). -/
def AnswersKind (r : Response) : Instr → Prop
  | .padcnt _ _ => ∃ l f u, r = .counts l f u
  | .smask _ => ∃ m, r = .mask m
  | .emask _ => ∃ m, r = .mask m
  | .bmask _ => ∃ m, r = .mask m
  | .fill _ _ => r = .done
  | .query _ _ => ∃ h, r = .hit h

/-- A command that completes adds one response, of its own kind. -/
theorem exec_answers_kind {i : Instr} {s t : State} (h : exec i s = .next t) :
    ∃ r, t.responses = s.responses ++ [r] ∧ AnswersKind r i := by
  obtain ⟨-, -, -, -, -, hready⟩ := exec_next h
  cases i with
  | padcnt start len => cases h; exact ⟨_, rfl, _, _, _, rfl⟩
  | smask n => cases h; exact ⟨_, rfl, _, rfl⟩
  | emask n => cases h; exact ⟨_, rfl, _, rfl⟩
  | bmask j => cases h; exact ⟨_, rfl, _, rfl⟩
  | fill start len =>
    obtain ⟨u, e, hmarks⟩ := exec_fill_marks start len (hready rfl)
    rw [e] at h
    cases h
    exact ⟨.done, by rw [State.respond_responses, hmarks.responses], rfl⟩
  | query start len =>
    obtain ⟨hit, e, -⟩ := exec_query_answers start len (hready rfl)
    rw [e] at h
    cases h
    exact ⟨.hit hit, rfl, hit, rfl⟩

/-! ### A reserved word at the machine (R65) -/

/-- A reserved word at a machine that has not faulted is refused at decode. -/
theorem runWord_reserved {cw : CommandWord} {why : Reserved} {s : State} (hf : s.faulted = none)
    (hd : decode cw = .error why) : runWord cw s = .refused (.reservedWord why) := by
  rw [runWord, hf, hd]

/-! ### The statements -/

/-- Settles O1: decoding is the inverse of encoding. -/
theorem decodeOfEncodeIsTheCommand : Obligations.DecodeOfEncodeIsTheCommand :=
  fun _ => decode_eq_ok_iff.mpr rfl

/-- Settles O2: decoding is the inverse of encoding. -/
theorem encodeOfDecodeIsTheWord : Obligations.EncodeOfDecodeIsTheWord :=
  fun _ _ => decode_eq_ok_iff.mp

/-- Settles O4: a word that spells a command selects its row, and one that selects a row spells a command of it; two rows
selected would be those of one command. -/
theorem decodeSelectsTheTableRow : Obligations.DecodeSelectsTheTableRow := by
  intro cw
  refine ⟨fun i h => selects_of_spells (spells_of_decode h), fun r => decode_of_selects, fun r hr r' hr' h h' => ?_⟩
  obtain ⟨i, hi, hname⟩ := decode_of_selects hr h
  obtain ⟨i', hi', hname'⟩ := decode_of_selects hr' h'
  obtain rfl : i = i' := Except.ok.inj (hi.symm.trans hi')
  exact row_eq_of_mnemonic_eq r hr r' hr' (hname.symm.trans hname')

/-- Settles O5: the valid words are the encodings, one for each command. -/
theorem numberOfValidWords : Obligations.NumberOfValidWords := by
  have hvalid (cw : CommandWord) : (∃ i, decode cw = .ok i) ↔ cw ∈ Set.range encode :=
    exists_congr fun _ => decode_eq_ok_iff
  rw [Obligations.NumberOfValidWords, Nat.card_congr (Equiv.subtypeEquivRight hvalid)]
  exact (Nat.card_range_of_injective encode_injective).trans card_instr

/-- Settles O7: which words do not decode is read off the decoder's equations, and the step presents the word. -/
theorem reservedWordsAreRefused : Obligations.ReservedWordsAreRefused := by
  refine fun cw => ⟨decode_error_iff cw, fun why hd s rest hin hf => ?_⟩
  rw [step_cons hin]
  exact runWord_reserved hf hd

/-- Settles O8, one lemma for each kind of word and one for the command's kind. -/
theorem responseWordHoldsTheResult : Obligations.ResponseWordHoldsTheResult := by
  refine ⟨counts_word_fields, fun m => setWidth_fields m rfl, rfl, fun h => setWidth_fields (BitVec.ofBool h) rfl, ?_⟩
  intro i s t h
  obtain ⟨r, hr, hkind⟩ := exec_answers_kind h
  exact ⟨r, hr, by cases i <;> exact hkind⟩

/-- Settles O3: the fields are those the command spells. -/
theorem operandsAreTheFields : Obligations.OperandsAreTheFields := by
  intro cw i h
  have hi := spells_of_decode h
  cases i with
  | padcnt start len => obtain ⟨-, rfl, rfl⟩ := hi; exact ⟨rfl, rfl⟩
  | smask n => obtain ⟨-, hz, rfl⟩ := hi; exact ⟨rfl, hz⟩
  | emask n => obtain ⟨-, hz, rfl⟩ := hi; exact ⟨rfl, hz⟩
  | bmask j => obtain ⟨-, hz, rfl⟩ := hi; exact ⟨rfl, hz⟩
  | fill start len => obtain ⟨-, rfl, rfl⟩ := hi; exact ⟨rfl, rfl⟩
  | query start len => obtain ⟨-, rfl, rfl⟩ := hi; exact ⟨rfl, rfl⟩

/-- Settles O6, by running the decoder on the seven printed words. -/
theorem workedEncodingsDecode : Obligations.WorkedEncodingsDecode := by
  unfold Obligations.WorkedEncodingsDecode
  decide

/-- Settles O57, by reading each line. -/
theorem linesOfTextStandForWords : Obligations.LinesOfTextStandForWords := by
  refine ⟨?_, ?_, ?_, ?_, ?_, ?_, ?_, ?_, ?_, ?_⟩ <;> decide

end Sys2Proof.Machine
end

section
/-!
PROOFS. The family of 40_padcount.md: what `PADCNT` answers. The triple is determined by its leading count
(`padCounts_eq`), and the four cases of R81 are the values of that count; the sum law and the shape facts are those of
`padCounts_shape`, read of the answered words.
-/
namespace Sys2Proof.Machine

/-! ### The triple by its leading count -/

/-- What the leading run leaves of the length is split into whole bytes and a rest (40_padcount.md R80). -/
theorem padCounts_eq {start len lead : Nat} (h : min (8 - start % 8) len % 8 = lead) :
    padCounts start len = ⟨lead, (len - lead) / 8, (len - lead) % 8⟩ := by
  have hoff : start - startAlign start = start % 8 := by rw [startAlign]; omega
  simp only [padCounts, hoff, h, PadCounts.mk.injEq, true_and]
  omega

/-- An empty range has no counts (R81, case A). -/
theorem padCounts_of_empty {start len : Nat} (h : len = 0) : padCounts start len = ⟨0, 0, 0⟩ := by
  subst h
  exact padCounts_eq (by omega)

/-- A range from a byte boundary with a whole byte in it has no leading bits (R81, case B). -/
theorem padCounts_of_aligned {start len : Nat} (hs : start % 8 = 0) (hl : 8 ≤ len) :
    padCounts start len = ⟨0, len / 8, len % 8⟩ :=
  padCounts_eq (by omega)

/-- A range within its first byte, and not all of that byte, is leading bits alone (R81, case C). -/
theorem padCounts_of_within_byte {start len : Nat}
    (h : (1 ≤ len ∧ len < 8 - start % 8) ∨ (len = 8 - start % 8 ∧ 0 < start % 8)) :
    padCounts start len = ⟨len, 0, 0⟩ := by
  rw [padCounts_eq (lead := len) (by omega), Nat.sub_self]

/-- A range from inside a byte to past its end leads up to the byte boundary (R81, case D). -/
theorem padCounts_of_crossing {start len : Nat} (hs : 0 < start % 8) (hl : 8 - start % 8 < len) :
    padCounts start len = ⟨8 - start % 8, (len - (8 - start % 8)) / 8, (len - (8 - start % 8)) % 8⟩ :=
  padCounts_eq (by omega)

/-- There are no leading bits exactly in the cases A and B (R83(c)). -/
theorem padCounts_leading_eq_zero_iff {start len : Nat} :
    (padCounts start len).leading = 0 ↔ len = 0 ∨ (start % 8 = 0 ∧ 8 ≤ len) := by
  rw [padCounts_eq rfl]
  change min (8 - start % 8) len % 8 = 0 ↔ _
  omega

/-! ### The answer of the command -/

/-- Words that hold the three counts are the answer (30_encoding.md R64). -/
theorem exec_padcnt_of_counts {start len l f t : Half} (s : State)
    (hc : padCounts start.toNat len.toNat = ⟨l.toNat, f.toNat, t.toNat⟩) :
    exec (.padcnt start len) s = .next (s.respond (.counts l f t)) := by
  rw [exec, execPadcnt, hc]
  simp only [BitVec.ofNat_toNat, BitVec.setWidth_eq]

/-- `PADCNT` completes on every state, and its three words hold the counts: none of them is cut. -/
theorem exec_padcnt_answers (start len : Half) (s : State) :
    ∃ l f t : Half, exec (.padcnt start len) s = .next (s.respond (.counts l f t)) ∧
      padCounts start.toNat len.toNat = ⟨l.toNat, f.toNat, t.toNat⟩ := by
  obtain ⟨hsum, -⟩ := padCounts_shape start.toNat len.toNat
  have hlen := len.isLt
  have fits {n : Nat} (h : n ≤ len.toNat) : (BitVec.ofNat 16 n).toNat = n := Nat.mod_eq_of_lt (by omega)
  refine ⟨_, _, _, rfl, ?_⟩
  rw [fits (by omega), fits (by omega), fits (by omega)]

/-! ### The same formula in 16 bits (R86) -/

/-- What is left of a word after its whole bytes is less than a byte; nothing wraps. -/
theorem toNat_sub_udiv_mul_eight (x : Half) : (x - x / 8#16 * 8#16).toNat = x.toNat % 8 := by
  have hdiv : (x / 8#16).toNat = x.toNat / 8 := BitVec.toNat_udiv
  have hmul : (x / 8#16 * 8#16).toNat = x.toNat / 8 * 8 := by
    have hfits : (x / 8#16).toNat * 8 < 65536 := by have hx := x.isLt; omega
    rw [BitVec.toNat_mul_of_lt hfits, hdiv]
    rfl
  rw [BitVec.toNat_sub_of_le (by rw [BitVec.le_def]; omega), hmul]
  omega

/-- The distance to the next byte boundary does not borrow: an offset in a byte is below 8. -/
theorem toNat_toBoundary (start : Half) :
    (8#16 - (start - start / 8#16 * 8#16)).toNat = 8 - start.toNat % 8 := by
  have hoff := toNat_sub_udiv_mul_eight start
  rw [BitVec.toNat_sub_of_le (by rw [BitVec.le_def, BitVec.toNat_ofNat]; omega), hoff]
  rfl

theorem toNat_ite_le_eq_min (x y : Half) : (if x ≤ y then x else y).toNat = min x.toNat y.toNat := by
  rw [apply_ite BitVec.toNat, min_def]
  rfl

/-! ### The statements -/

/-- Settles O17: in each case the answered words hold the triple of that case. -/
theorem padcntCaseAnalysis : Obligations.PadcntCaseAnalysis := by
  intro start len s
  obtain ⟨l, f, t, hexec, hc⟩ := exec_padcnt_answers start len s
  have counts {lead full trail : Nat} (h : padCounts start.toNat len.toNat = ⟨lead, full, trail⟩) :
      l.toNat = lead ∧ f.toNat = full ∧ t.toNat = trail := PadCounts.mk.inj (hc.symm.trans h)
  exact ⟨l, f, t, hexec, fun h => counts (padCounts_of_empty h), fun h => counts (padCounts_of_aligned h.1 h.2),
    fun h => counts (padCounts_of_within_byte h), fun h => counts (padCounts_of_crossing h.1 h.2), by omega⟩

/-- Settles O18: the sum law and the ranges are those of the triple, for any length. -/
theorem padcntSumLawAndRanges : Obligations.PadcntSumLawAndRanges := by
  refine ⟨fun start len s => ?_, fun start len => ?_⟩
  · obtain ⟨l, f, t, hexec, hc⟩ := exec_padcnt_answers start len s
    have hshape := padCounts_shape start.toNat len.toNat
    simp only [hc] at hshape
    obtain ⟨hsum, htrail, hbyte, hlead, -, -⟩ := hshape
    have hlen := len.isLt
    exact ⟨l, f, t, hexec, hsum, by omega⟩
  · obtain ⟨hsum, -⟩ := padCounts_shape start.toNat (workingLen start.toNat len.toNat)
    exact hsum.trans (workingLen_eq start.isLt.le)

/-- Settles O19: the shape facts are those of the triple, and no leading bits are the cases A and B. -/
theorem padcntShapeFacts : Obligations.PadcntShapeFacts := by
  intro start len s
  obtain ⟨l, f, t, hexec, hc⟩ := exec_padcnt_answers start len s
  have hshape := padCounts_shape start.toNat len.toNat
  have hzero := padCounts_leading_eq_zero_iff (start := start.toNat) (len := len.toNat)
  simp only [hc] at hshape hzero
  obtain ⟨hsum, -, hbyte, -, haligned, hempty⟩ := hshape
  refine ⟨l, f, t, hexec, hbyte, fun hrest => ?_, hzero, fun hl hf => ?_⟩
  · rcases haligned hrest with ⟨hl, hs⟩ | ⟨-, hend⟩ <;> omega
  · have ht : t.toNat = 0 := hempty hl hf
    exact ⟨ht, by omega⟩

/-- Settles O20: no operation of the formula wraps, so its three words hold the counts. -/
theorem padcntInSixteenBitArithmetic : Obligations.PadcntInSixteenBitArithmetic := by
  intro start len s startAlign toBoundary leading full trailing
  have hlead : leading.toNat = min (8 - start.toNat % 8) len.toNat % 8 := by
    rw [BitVec.toNat_umod, toNat_ite_le_eq_min, toNat_toBoundary]
    rfl
  have hrest : (len - leading).toNat = len.toNat - leading.toNat :=
    BitVec.toNat_sub_of_le (by rw [BitVec.le_def]; omega)
  have hfull : full.toNat = (len.toNat - leading.toNat) / 8 := by
    rw [BitVec.toNat_udiv, hrest]
    rfl
  have htrail : trailing.toNat = (len.toNat - leading.toNat) % 8 := by
    rw [toNat_sub_udiv_mul_eight, hrest]
  exact exec_padcnt_of_counts s (by rw [padCounts_eq hlead.symm, hfull, htrail])

/-- Settles O16: the triple is the formula, and its counts fit their words. -/
theorem padcntAnswersTheTriple : Obligations.PadcntAnswersTheTriple := by
  intro start len s
  obtain ⟨l, f, t, hexec, hc⟩ := exec_padcnt_answers start len s
  exact ⟨l, f, t, hexec, PadCounts.mk.inj hc.symm⟩

end Sys2Proof.Machine
end

section
/-!
PROOFS. The family of 41_mask.md: the masks, read at bit offsets. Both range masks are `0xFF` shifted by `8 - n`
(`startMask_eq_shift`, `endMask_eq_shift`), which says at which offsets they are set; two masks are compared offset by
offset (`byte_ext`), and so a law of the masks is one about intervals of offsets.
-/
namespace Sys2Proof.Machine

/-! ### The range masks as shifts and at each bit offset (R90, R91, R93) -/

theorem toNat_startMask {n : Byte} (h : n.toNat < 8) : (startMask n).toNat = 2 ^ n.toNat - 1 := by
  rw [startMask, if_neg (by omega)]
  generalize n.toNat = k at h
  interval_cases k <;> rfl

/-- `start_mask(n)` is `0xFF` with its first `8 - n` positions shifted out; the truncated subtraction saturates. -/
theorem startMask_eq_shift (n : Byte) : startMask n = 0xFF#8 >>> (8 - n.toNat) := by
  rw [startMask]
  split
  · rw [Nat.sub_eq_zero_of_le ‹_›]
    rfl
  · have h : n.toNat < 8 := by omega
    generalize n.toNat = k at h
    interval_cases k <;> rfl

/-- `end_mask(n)` is `0xFF` with its last `8 - n` positions shifted out; the truncated subtraction saturates. -/
theorem endMask_eq_shift (n : Byte) : endMask n = 0xFF#8 <<< (8 - n.toNat) := by
  rw [endMask]
  split
  · rw [Nat.sub_eq_zero_of_le ‹_›]
    rfl
  · exact BitVec.and_allOnes

/-- Every bit of `0xFF` is set, and there is none above bit 7. -/
theorem getLsbD_ones (k : Nat) : (0xFF#8).getLsbD k = decide (k < 8) :=
  BitVec.getLsbD_allOnes

theorem getLsbD_startMask (n : Byte) {k : Nat} (hk : k < 8) : (startMask n).getLsbD k = decide (k < n.toNat) := by
  rw [startMask_eq_shift, BitVec.getLsbD_ushiftRight, getLsbD_ones, decide_eq_decide]
  omega

theorem getLsbD_endMask (n : Byte) {k : Nat} (hk : k < 8) : (endMask n).getLsbD k = decide (8 - n.toNat ≤ k) := by
  rw [endMask_eq_shift, BitVec.getLsbD_shiftLeft, getLsbD_ones, Bool.eq_iff_iff]
  simp
  omega

theorem startMask_at (n : Byte) {j : Nat} (hj : j < 8) : (startMask n).getLsbD (7 - j) = decide (8 ≤ j + n.toNat) := by
  rw [getLsbD_startMask n (by omega), decide_eq_decide]
  omega

theorem endMask_at (n : Byte) {j : Nat} (hj : j < 8) : (endMask n).getLsbD (7 - j) = decide (j < n.toNat) := by
  rw [getLsbD_endMask n (by omega), decide_eq_decide]
  omega

/-- A count up to 8 fits the operand of a mask. -/
theorem toNat_count {n : Nat} (h : n ≤ 8) : (BitVec.ofNat 8 n).toNat = n :=
  Nat.mod_eq_of_lt (by omega)

/-! ### The single-bit masks (R92) -/

/-- The single-bit mask of an offset in a byte is that of the positions with this offset. -/
theorem shift_eq_positionMask {o : Nat} (h : o < 8) : 0x80#8 >>> o = positionMask o := by
  rw [positionMask_eq_shift, Nat.mod_eq_of_lt h]

/-- The OR of the single-bit masks of some bit offsets is set at these offsets. -/
theorem foldl_or_singleBit_at {os : List Nat} {j : Nat} (hj : j < 8) (hos : ∀ o ∈ os, o < 8) (b : Byte) :
    (os.foldl (fun b o => b ||| (0x80#8 >>> o)) b).getLsbD (7 - j) = (b.getLsbD (7 - j) || decide (j ∈ os)) := by
  induction os generalizing b with
  | nil => simp
  | cons o os ih =>
    obtain ⟨ho, hos⟩ := List.forall_mem_cons.mp hos
    rw [List.foldl_cons, ih hos, BitVec.getLsbD_or, shift_eq_positionMask ho, positionMask_bit ho hj, Bool.or_assoc,
      ← Bool.decide_or]
    simp only [List.mem_cons]

/-- The OR of the single-bit masks of the `L` offsets from `o` on. -/
def runMask (o L : Nat) : Byte := (List.range' o L).foldl (fun b o => b ||| (0x80#8 >>> o)) 0x00#8

theorem runMask_at {o L j : Nat} (h : o + L ≤ 8) (hj : j < 8) :
    (runMask o L).getLsbD (7 - j) = decide (o ≤ j ∧ j < o + L) := by
  rw [runMask, foldl_or_singleBit_at hj fun i hi => by rw [List.mem_range'_1] at hi; omega]
  simp [List.mem_range'_1]

/-- A run of offsets is the end of the byte from its start on, cut at its own end (R96). -/
theorem runMask_eq_and {o L : Nat} (h : o + L ≤ 8) :
    runMask o L = startMask (BitVec.ofNat 8 (8 - o)) &&& endMask (BitVec.ofNat 8 (o + L)) := by
  apply byte_ext
  intro j hj
  rw [runMask_at h hj, BitVec.getLsbD_and, startMask_at _ hj, endMask_at _ hj, toNat_count (by omega), toNat_count h,
    ← Bool.decide_and, decide_eq_decide]
  omega

/-- A run that reaches the byte's end is a `start_mask` (R94). -/
theorem runMask_eq_startMask {n : Nat} (h : n ≤ 8) : runMask (8 - n) n = startMask (BitVec.ofNat 8 n) := by
  apply byte_ext
  intro j hj
  rw [runMask_at (by omega) hj, startMask_at _ hj, toNat_count h, decide_eq_decide]
  omega

/-- A run from the byte's start is an `end_mask` (R94). -/
theorem runMask_eq_endMask {n : Nat} (h : n ≤ 8) : runMask 0 n = endMask (BitVec.ofNat 8 n) := by
  apply byte_ext
  intro j hj
  rw [runMask_at (by omega) hj, endMask_at _ hj, toNat_count h, decide_eq_decide]
  omega

/-- A run is the `start_mask` of its length only where it reaches the byte's end, or is empty (R96): the last offset
tells. -/
theorem runMask_eq_startMask_iff {o L : Nat} (h : o + L ≤ 8) :
    runMask o L = startMask (BitVec.ofNat 8 L) ↔ o + L = 8 ∨ L = 0 := by
  constructor
  · intro heq
    have hlast := congrArg (BitVec.getLsbD · (7 - 7)) heq
    simp only [runMask_at h (show 7 < 8 by decide), startMask_at _ (show 7 < 8 by decide),
      toNat_count (show L ≤ 8 by omega), decide_eq_decide] at hlast
    omega
  · rintro (hend | rfl)
    · rw [← runMask_eq_startMask (by omega), show o = 8 - L by omega]
    · rfl

/-! ### The laws of the range masks (R94) -/

/-- For `n` up to 8 the two masks split the byte at offset `8 - n`. -/
theorem startMask_endMask_complement {n : Nat} (h : n ≤ 8) :
    startMask (BitVec.ofNat 8 n) ||| endMask (BitVec.ofNat 8 (8 - n)) = 0xFF#8 ∧
    startMask (BitVec.ofNat 8 n) &&& endMask (BitVec.ofNat 8 (8 - n)) = 0x00#8 := by
  constructor <;> apply byte_ext <;> intro j hj
  · rw [BitVec.getLsbD_or, startMask_at _ hj, endMask_at _ hj, toNat_count h, toNat_count (by omega), ones_bit,
      ← Bool.decide_or, decide_eq_true_iff]
    omega
  · rw [BitVec.getLsbD_and, startMask_at _ hj, endMask_at _ hj, toNat_count h, toNat_count (by omega),
      BitVec.getLsbD_zero, ← Bool.decide_and, decide_eq_false_iff_not]
    omega

/-- Counts above 8 give the masks of 8. -/
theorem masks_saturate (n : Byte) : startMask n = startMask (BitVec.ofNat 8 (min n.toNat 8)) ∧
    endMask n = endMask (BitVec.ofNat 8 (min n.toNat 8)) := by
  have hshift : 8 - min n.toNat 8 = 8 - n.toNat := by omega
  simp only [startMask_eq_shift, endMask_eq_shift, toNat_count (min_le_right _ 8), hshift, and_self]

/-- A larger count covers more offsets. -/
theorem masks_mono {m n : Byte} (h : m.toNat ≤ n.toNat) :
    startMask m &&& startMask n = startMask m ∧ endMask m &&& endMask n = endMask m := by
  constructor <;> apply byte_ext <;> intro j hj
  · rw [BitVec.getLsbD_and, startMask_at _ hj, startMask_at _ hj, ← Bool.decide_and, decide_eq_decide]
    omega
  · rw [BitVec.getLsbD_and, endMask_at _ hj, endMask_at _ hj, ← Bool.decide_and, decide_eq_decide]
    omega

/-! ### The engines beyond offset 7 -/

theorem fillLeading_noBitMask {cap target off k : Nat} (ho : 8 ≤ off) (hk : 0 < k) (s : State) :
    fillLeading cap target off k s = .error (.noBitMask off) := by
  obtain ⟨k, rfl⟩ := Nat.exists_eq_succ_of_ne_zero hk.ne'
  rw [fillLeading, maskAt_error ho]
  rfl

theorem queryLeading_noBitMask {cap target off k : Nat} (ho : 8 ≤ off) (hk : 0 < k) (s : State) :
    queryLeading cap target s off k = .error (.noBitMask off) := by
  obtain ⟨k, rfl⟩ := Nat.exists_eq_succ_of_ne_zero hk.ne'
  rw [queryLeading, maskAt_error ho]
  rfl

/-- The one refusal of a command is that of FILL and QUERY on a bitmap that was not reset
(70_reset_and_hazards.md R161). -/
theorem exec_completes_or_mapNotReset (i : Instr) (s : State) :
    (∃ t, exec i s = .next t) ∨ exec i s = .refused (.mapNotReset s.bound) := by
  cases i with
  | padcnt start len => exact .inl ⟨_, rfl⟩
  | smask n => exact .inl ⟨_, rfl⟩
  | emask n => exact .inl ⟨_, rfl⟩
  | bmask j => exact .inl ⟨_, rfl⟩
  | fill start len =>
    by_cases hr : s.mapReady = true
    · obtain ⟨u, hexec, -⟩ := exec_fill_marks start len hr
      exact .inl ⟨_, hexec⟩
    · exact .inr (if_neg hr)
  | query start len =>
    by_cases hr : s.mapReady = true
    · obtain ⟨h, hexec, -⟩ := exec_query_answers start len hr
      exact .inl ⟨_, hexec⟩
    · exact .inr (if_neg hr)

/-! ### The statements -/

/-- Settles O60: an engine asks for the mask before any access, and no command is refused for want of a mask. -/
theorem singleBitMasksEndAtSeven : Obligations.SingleBitMasksEndAtSeven := by
  refine ⟨fun i hi => ?_, fun i hi => offsetMask_none hi, fun cap target off k s ho hk => ?_, fun i s k => ?_⟩
  · rw [offsetMask_some hi, shift_eq_positionMask hi]
  · rw [fillLeading_noBitMask ho hk, queryLeading_noBitMask ho hk]
    exact ⟨rfl, rfl⟩
  · obtain ⟨t, hexec⟩ | hexec := exec_completes_or_mapNotReset i s
    · rw [hexec]
      nofun
    · rw [hexec]
      nofun

/-- Settles O21: the answer is `start_mask(n)`, read bit by bit. -/
theorem smaskAnswersTheLowBits : Obligations.SmaskAnswersTheLowBits :=
  fun n _ => ⟨startMask n, rfl, fun h => if_pos h, toNat_startMask, fun _ hk => getLsbD_startMask n hk⟩

/-- Settles O22: the answer is `end_mask(n)`, whose value is that of the shift. -/
theorem emaskAnswersTheHighBits : Obligations.EmaskAnswersTheHighBits := by
  refine fun n s => ⟨endMask n, rfl, fun h => if_pos h, fun _ => ?_, fun k hk => getLsbD_endMask n hk⟩
  rw [endMask_eq_shift, BitVec.toNat_shiftLeft, Nat.shiftLeft_eq]
  rfl

/-- Settles O23: the mask is the power of two of its bit. -/
theorem bmaskAnswersTheSingleBit : Obligations.BmaskAnswersTheSingleBit := by
  intro i s
  have hi : i.toNat < 8 := i.isLt
  have hmask : bitMask i = BitVec.twoPow 8 (7 - i.toNat) := by
    rw [bitMask, shift_eq_positionMask hi, positionMask_eq hi]
  refine ⟨bitMask i, rfl, rfl, ?_, fun k hk => ?_⟩
  · rw [hmask, BitVec.toNat_twoPow_of_lt (by omega)]
  · rw [hmask, BitVec.getLsbD_twoPow, ← Bool.decide_and, decide_eq_decide]
    omega

/-- Settles O24: the test under a single-bit mask reads that offset. -/
theorem masksCoverFirstAndLastPositions : Obligations.MasksCoverFirstAndLastPositions := by
  intro n o ho
  rw [shift_eq_positionMask ho, anyUnder_positionMask, anyUnder_positionMask, Nat.mod_eq_of_lt ho, endMask_at n ho,
    startMask_at n ho, decide_eq_true_iff, decide_eq_true_iff]
  exact ⟨Iff.rfl, Iff.rfl⟩

/-- Settles O25, one lemma for each law. -/
theorem maskLaws : Obligations.MaskLaws := by
  refine ⟨fun n hn => startMask_endMask_complement hn, masks_saturate, fun n hn => ?_, fun m n h => masks_mono h⟩
  rw [List.range_eq_range']
  exact ⟨(runMask_eq_startMask hn).symm, (runMask_eq_endMask hn).symm⟩

/-- Settles O26: the run is `runMask`, and the two masks it is cut from are shifts of `0xFF`. -/
theorem leadingRunAsOneMask : Obligations.LeadingRunAsOneMask := by
  intro o L ho hL run
  have hrun : run = runMask o L := by rw [runMask, List.range'_eq_map_range, List.foldl_map]
  have hmasks := runMask_eq_and hL
  have hshift : runMask o L = (0xFF#8 >>> o) &&& (0xFF#8 <<< (8 - o - L)) := by
    rw [hmasks, startMask_eq_shift, endMask_eq_shift, toNat_count (by omega), toNat_count hL, Nat.sub_sub_self ho.le,
      Nat.sub_sub]
  rw [hrun]
  exact ⟨hshift, hmasks, runMask_eq_startMask_iff hL⟩

end Sys2Proof.Machine
end

section
/-!
PROOFS. The family of 42_fill.md. A FILL is the set of positions it marks (`exec_fill_marks`), two FILLs one after the other
mark the union (`exec_fill_fill_marks`), and marking determines every byte of memory: the bytes without a marked position
are kept (`Marks.read_same`), and marking the same positions of one state leaves the same bytes (`Marks.read_eq`). So the
laws of FILL are laws of sets of positions. A buffer that is too short stops the first pass (`fillRange_error`).
-/
namespace Sys2Proof.Machine

/-! ### What marking says of every byte of memory -/

/-- Below the end of the last bitmap every address is that of a byte of some bitmap. -/
theorem exists_mapAddr {a : Nat} (h : a < 536870912) : ∃ seg : Half, ∃ idx < 8192, a = mapAddr seg idx := by
  refine ⟨BitVec.ofNat 16 (a / 8192), a % 8192, Nat.mod_lt _ (by decide), ?_⟩
  rw [mapAddr, BitVec.toNat_ofNat]
  simp only [Config.segmentBytes]
  omega

/-- A byte that holds no marked position reads as before (42_fill.md R106). -/
theorem Marks.read_same {P : Nat → Prop} {s t : State} (h : Marks P s t) {a : Nat}
    (ha : ∀ p, P p → a ≠ mapAddr s.bound (p / 8)) : Memory.read t.mem a = Memory.read s.mem a := by
  rcases Nat.lt_or_ge a 536870912 with hlt | hge
  · obtain ⟨seg, idx, hi, rfl⟩ := exists_mapAddr hlt
    refine h.byteOf hi fun hseg j hj hp => ha _ hp ?_
    rw [hseg, show (8 * idx + j) / 8 = idx by omega]
  · exact h.beyond a hge

/-- Marking the same positions of one state leaves memories that read alike everywhere. -/
theorem Marks.read_eq {P : Nat → Prop} {s t u : State} (h : Marks P s t) (k : Marks P s u) (a : Nat) :
    Memory.read t.mem a = Memory.read u.mem a := by
  rcases Nat.lt_or_ge a 536870912 with hlt | hge
  · obtain ⟨seg, idx, hi, rfl⟩ := exists_mapAddr hlt
    refine State.byteOf_eq_of_bitOf_eq fun j hj => ?_
    have hp : 8 * idx + j < 65536 := by omega
    rw [Bool.eq_iff_iff, h.bits seg _ hp, k.bits seg _ hp]
  · rw [h.beyond a hge, k.beyond a hge]

theorem Marks.sameMaps {P : Nat → Prop} {s t u : State} (h : Marks P s t) (k : Marks P s u) : sameMaps t u :=
  fun seg idx _ => h.read_eq k (mapAddr seg idx)

/-- On a memory in canonical form the two results are the same data. -/
theorem Marks.mem_eq {P : Nat → Prop} {s t u : State} (h : Marks P s t) (k : Marks P s u) (hwf : Memory.wf s.mem) :
    t.mem = u.mem :=
  Memory.eq_of_read_eq (h.wf hwf) (k.wf hwf) (h.read_eq k)

/-! ### A byte whose marked positions are one run -/

/-- A byte with the offsets from `o` to before `o + L` marked has their run OR-ed in (42_fill.md R103 to R105). -/
theorem Marks.mapByte_run {P : Nat → Prop} {s t : State} (h : Marks P s t) {idx o L : Nat} (hi : idx < 8192)
    (ho : o + L ≤ 8) (hrun : ∀ j < 8, (P (8 * idx + j) ↔ o ≤ j ∧ j < o + L)) :
    t.mapByte idx = s.mapByte idx ||| runMask o L := by
  refine h.mapByte_or hi fun j hj => ?_
  rw [runMask_at ho hj, decide_eq_true_iff, hrun j hj]

/-! ### Two FILLs one after the other -/

/-- Marking positions after a response comes to marking them before it. -/
theorem Marks.of_respond {P : Nat → Prop} {s t : State} {r : Response} (h : Marks P (s.respond r) t) :
    ∃ u, t = u.respond r ∧ Marks P s u := by
  have hcells := h.cells
  rw [h.only_mem] at hcells
  exact ⟨s.withMem t.mem, h.only_mem, rfl, h.beyond, h.bits, h.wf, hcells⟩

/-- Two FILLs complete and mark the positions of both ranges (42_fill.md R111). -/
theorem exec_fill_fill_marks (a b c d : Half) {s : State} (hr : s.mapReady = true) :
    ∃ u v, exec (.fill a b) s = .next (u.respond .done) ∧
      exec (.fill c d) (u.respond .done) = .next ((v.respond .done).respond .done) ∧
      Marks (inFillSet a.toNat b.toNat) s u ∧
      Marks (fun p => inFillSet a.toNat b.toNat p ∨ inFillSet c.toNat d.toNat p) s v := by
  obtain ⟨u, hfst, hu⟩ := exec_fill_marks a b hr
  obtain ⟨w, hsnd, hw⟩ := exec_fill_marks c d ((exec_mapReady hfst).trans hr)
  obtain ⟨v, rfl, hv⟩ := hw.of_respond
  exact ⟨u, v, hfst, hsnd, hu, hu.trans hv⟩

/-- A wrapping range is the part up to the segment end and the remainder from position 0 (42_fill.md R101). -/
theorem inFillSet_of_wrapping {start len : Half} (hw : 65536 < start.toNat + len.toNat) {p : Nat} (hp : p < 65536) :
    inFillSet start.toNat len.toNat p ↔
      inFillSet start.toNat (BitVec.ofNat 16 (65536 - start.toNat)).toNat p ∨
      inFillSet (0#16).toNat (BitVec.ofNat 16 (start.toNat + len.toNat - 65536)).toNat p := by
  have hstart := start.isLt
  have hlen := len.isLt
  rw [inFillSet_iff hstart hlen hp, inFillSet_iff hstart (BitVec.isLt _) hp,
    inFillSet_iff (BitVec.isLt _) (BitVec.isLt _) hp]
  simp only [BitVec.toNat_ofNat]
  omega

/-! ### A buffer that is too short (R112) -/

/-- Over a buffer that does not hold the part of the range up to the segment end, FILL stops in its first pass. -/
theorem fillRange_error {cap start len : Nat} (s : State) (hs : start < 65536) (h0 : 0 < len)
    (hc : cap ≤ (min (start + len) 65536 - 1) / 8) :
    ∃ t, fillRange cap start len s = .error (.outside (max cap (start / 8)) t) ∧
      Marks (fun p => start ≤ p ∧ p < min (start + len) 65536 ∧ p / 8 < cap) s t := by
  rcases Nat.lt_or_ge 65536 (start + len) with hw | hw
  · obtain ⟨t, e, hmarks⟩ := fillPass_error (cap := cap) (start := start) (len := 65536 - start) s (by omega)
      (by omega) (by omega)
    exact ⟨t, by rw [fillRange_wrapping cap s hs.le hw, e, Except.bind], hmarks.congr fun p _ => by omega⟩
  · obtain ⟨t, e, hmarks⟩ := fillPass_error (cap := cap) s hw h0 (by omega)
    exact ⟨t, by rw [fillRange_not_wrapping cap s hw, e], hmarks.congr fun p _ => by omega⟩

/-- A machine that has faulted answers the fault to every command (60_exceptions.md R143). -/
theorem step_command_of_faulted {s : State} {idx : Nat} (hf : s.faulted = some idx) (cw : CommandWord)
    (rest : List HostEvent) : step (s.withInbox (.command cw :: rest)) = .fault (.boundsViolation idx) := by
  rw [step_cons (State.withInbox_inbox _ _), perform, runWord, State.withInbox_faulted, State.withInbox_faulted, hf]

/-! ### The statements -/

/-- Settles O30: the positions marked, and the modular sum taken apart. -/
theorem fillSetsExactlyItsPositions : Obligations.FillSetsExactlyItsPositions := by
  refine ⟨fun start len s hr => ?_, fun start len j k hj hk heq => ?_,
    fun start len p hp => inFillSet_iff start.isLt len.isLt hp⟩
  · obtain ⟨u, e, hmarks⟩ := exec_fill_marks start len hr
    exact ⟨_, e, fun p hp => hmarks.bit hp⟩
  · have hlen := len.isLt
    omega

/-- Settles O31: bytes without a marked position read as before. -/
theorem fillChangesNothingElse : Obligations.FillChangesNothingElse := by
  intro start len s hr
  obtain ⟨u, e, hmarks⟩ := exec_fill_marks start len hr
  refine ⟨_, e, fun a ha => hmarks.read_same ha, ?_, hmarks.sameBut⟩
  rw [State.respond_responses, hmarks.responses]

/-- Settles O32: each part of the range is one run of offsets in the bytes that it has. -/
theorem fillWritesTheThreeParts : Obligations.FillWritesTheThreeParts := by
  intro start len s hr hend
  obtain ⟨u, e, hfill⟩ := exec_fill_marks start len hr
  have hmarks : Marks (fun p => start.toNat ≤ p ∧ p < start.toNat + len.toNat) s u := hfill.congr fun p hp => by
    rw [inFillSet_iff start.isLt len.isLt hp]
    omega
  have hshape := padCounts_shape start.toNat len.toNat
  refine ⟨_, e, ?_⟩
  generalize padCounts start.toNat len.toNat = c at hshape ⊢
  obtain ⟨hsum, htrail, hlead, -, haligned, -⟩ := hshape
  dsimp only
  generalize hbase : (start.toNat / 8 + if c.leading > 0 then 1 else 0) = base
  have hboundary : c.full > 0 ∨ c.trailing > 0 → 8 * base = start.toNat + c.leading := by
    intro h
    rw [← hbase]
    split <;> omega
  refine ⟨fun h => ?_, fun k hk => ?_, fun h => ?_⟩
  · rw [State.respond_mapByte, ← runMask_eq_and hlead]
    exact hmarks.mapByte_run (by omega) hlead fun j hj => by omega
  · have hb := hboundary (.inl (by omega))
    rw [State.respond_mapByte, hmarks.mapByte_run (o := 0) (L := 8) (by omega) le_rfl fun j hj => by omega]
    exact BitVec.or_allOnes
  · have hb := hboundary (.inr h)
    rw [State.respond_mapByte, ← runMask_eq_endMask htrail.le]
    exact hmarks.mapByte_run (by omega) (by omega) fun j hj => by omega

/-- Settles O33: the two parts cover the range, in whichever order they are marked. -/
theorem wrappingFillIsTwoFills : Obligations.WrappingFillIsTwoFills := by
  intro start len s hr hw
  have hstart := start.isLt
  have hlen := len.isLt
  obtain ⟨t, e, ht⟩ := exec_fill_marks start len hr
  obtain ⟨u, v, hu, hv, -, huv⟩ := exec_fill_fill_marks start (BitVec.ofNat 16 (65536 - start.toNat)) 0#16
    (BitVec.ofNat 16 (start.toNat + len.toNat - 65536)) hr
  obtain ⟨u', v', hu', hv', -, huv'⟩ := exec_fill_fill_marks 0#16
    (BitVec.ofNat 16 (start.toNat + len.toNat - 65536)) start (BitVec.ofNat 16 (65536 - start.toNat)) hr
  have hparts := ht.congr fun p hp => inFillSet_of_wrapping hw hp
  exact ⟨_, _, _, _, _, e, hu, hv, hu', hv', (hparts.sameMaps huv :),
    ((hparts.congr fun p _ => or_comm).sameMaps huv' :), by omega, by omega⟩

/-- Settles O34: what was set stays set, as of every command. -/
theorem fillNeverClearsABit : Obligations.FillNeverClearsABit := by
  intro start len s hr
  obtain ⟨u, e, -⟩ := exec_fill_marks start len hr
  exact ⟨_, e, fun seg p hp hset => exec_keeps_bits e hp hset⟩

/-- Settles O35: the union of a set of positions with itself. -/
theorem fillIsIdempotent : Obligations.FillIsIdempotent := by
  intro start len s hr
  obtain ⟨u, v, hfst, hsnd, hu, hv⟩ := exec_fill_fill_marks start len start len hr
  replace hv := hv.congr fun p _ => or_self_iff
  exact ⟨_, _, hfst, hsnd, (hu.sameMaps hv :), (hv.mem_eq hu :)⟩

/-- Settles O36: a position that is not marked keeps its bit. -/
theorem fillSetsNothingOutsideItsRange : Obligations.FillSetsNothingOutsideItsRange := by
  intro start len s hr
  obtain ⟨u, e, hmarks⟩ := exec_fill_marks start len hr
  refine ⟨_, e, fun p hp hout => ?_⟩
  rw [State.respond_bit, Bool.eq_iff_iff, hmarks.bit hp, or_iff_left hout]

/-- Settles O37: unions of sets of positions commute, and accumulate along a list. -/
theorem fillsCommuteAndAccumulate : Obligations.FillsCommuteAndAccumulate := by
  refine ⟨fun a b c d s hr => ?_, fun fills s hr => ?_, fun fills => ?_⟩
  · obtain ⟨u, v, hu, hv, -, huv⟩ := exec_fill_fill_marks a b c d hr
    obtain ⟨u', v', hu', hv', -, huv'⟩ := exec_fill_fill_marks c d a b hr
    replace huv' := huv'.congr fun p _ => or_comm
    exact ⟨_, _, (execAll_cons_of_next hu).trans (execAll_cons_of_next hv),
      (execAll_cons_of_next hu').trans (execAll_cons_of_next hv'), (huv.sameMaps huv' :),
      (huv.mem_eq huv' :)⟩
  · obtain ⟨t, e, -, hbits⟩ := execAll_fills fills hr
    exact ⟨t, e, hbits⟩
  · obtain ⟨t, e, -, hbits⟩ := execAll_fills fills (s := State.reset) (by decide)
    refine ⟨t, e, fun p hp => (hbits p hp).trans (or_iff_right ?_)⟩
    rw [State.bit, State.reset_bitOf]
    exact Bool.false_ne_true

/-- Settles O38: the first pass stops at the first byte outside, and the machine with it. -/
theorem fillFaultsAtTheFirstByteOutside : Obligations.FillFaultsAtTheFirstByteOutside := by
  intro cap start len s stop hlen hcap
  obtain ⟨t, e, hmarks⟩ := fillRange_error s start.isLt hlen hcap
  exact ⟨t.raiseBounds (max cap (start.toNat / 8)), by rw [e, fillOutcome, stopOutcome], rfl, hmarks.responses,
    fun p hp => hmarks.bit hp, fun cw rest => step_command_of_faulted rfl cw rest⟩

end Sys2Proof.Machine
end

section
/-!
PROOFS. The family of 43_query.md. On the whole bitmap the answer of a QUERY is found from the positions alone: one set
position of the truncated range makes it true (`exec_query_hit`), and if none is set it is false (`exec_query_no_hit`); what
a FILL leaves for it to find is `exec_fill_bits`. Over a shorter buffer the scan stops at a hit (`queryRange_hit`) or, if
none comes first, at the first byte outside (`queryRange_error`).
-/
namespace Sys2Proof.Machine

/-! ### The answer on the whole bitmap (R125) -/

theorem exec_query_hit {start len : Half} {s : State} {p : Nat} (hr : s.mapReady = true) (hlo : start.toNat ≤ p)
    (hhi : p < start.toNat + len.toNat) (hp : p < 65536) (hset : s.bit p = true) :
    exec (.query start len) s = .next (s.respond (.hit true)) := by
  obtain ⟨h, e, hh⟩ := exec_query_answers start len hr
  rw [e, hh.mpr ⟨p, hlo, hhi, hp, hset⟩]

theorem exec_query_no_hit {start len : Half} {s : State} (hr : s.mapReady = true)
    (hclear : ∀ p, start.toNat ≤ p → p < start.toNat + len.toNat → p < 65536 → s.bit p = false) :
    exec (.query start len) s = .next (s.respond (.hit false)) := by
  obtain ⟨h, e, hh⟩ := exec_query_answers start len hr
  have hfalse : h = false := by
    rw [← Bool.not_eq_true, hh]
    rintro ⟨p, hlo, hhi, hp, hset⟩
    rw [hclear p hlo hhi hp] at hset
    cases hset
  rw [e, hfalse]

/-- A FILL completes and leaves the bitmap ready for a QUERY, with the positions of its range set (42_fill.md R107). -/
theorem exec_fill_bits (start len : Half) {s : State} (hr : s.mapReady = true) :
    ∃ t, exec (.fill start len) s = .next t ∧ t.mapReady = true ∧
      ∀ p < 65536, (t.bit p = true ↔ s.bit p = true ∨ inFillSet start.toNat len.toNat p) := by
  obtain ⟨u, e, hmarks⟩ := exec_fill_marks start len hr
  exact ⟨_, e, (exec_mapReady e).trans hr, fun p hp => hmarks.bit hp⟩

/-! ### A buffer that is too short (R129) -/

/-- A set position in a byte before the end of the buffer is found before the scan leaves the buffer. -/
theorem queryRange_hit {cap start len p : Nat} {s : State} (hs : start ≤ 65536) (hlo : start ≤ p)
    (hhi : p < min (start + len) 65536) (hc : p / 8 < cap) (hset : s.bit p = true) :
    queryRange cap start len s = .ok true := by
  rw [queryRange, workingLen_eq hs]
  exact (queryPass_spec s).1 ⟨p, by omega, hset⟩

/-- With no such position the scan stops at the first byte of the truncated range that is not in the buffer. -/
theorem queryRange_error {cap start len : Nat} {s : State} (hs : start < 65536) (h0 : 0 < len)
    (hc : cap ≤ (min (start + len) 65536 - 1) / 8)
    (hclear : ∀ p, start ≤ p → p < min (start + len) 65536 → p / 8 < cap → s.bit p = false) :
    queryRange cap start len s = .error (.outside (max cap (start / 8)) s) := by
  rw [queryRange, workingLen_eq hs.le, (queryPass_spec s).2, if_neg (by omega)]
  rintro ⟨p, ⟨hlo, hhi, hp⟩, hset⟩
  rw [hclear p hlo (by omega) hp] at hset
  cases hset

/-! ### The statements -/

/-- Settles O44: the scan order decides between the hit and the fault. -/
theorem queryFaultsOnlyBeforeAHit : Obligations.QueryFaultsOnlyBeforeAHit := by
  intro cap start len s stop hlen hcap
  refine ⟨fun ⟨p, hlo, hhi, hp, hset⟩ => ?_, fun hclear => ?_⟩
  · rw [queryRange_hit start.isLt.le hlo hhi hp hset, queryOutcome]
  · rw [queryRange_error start.isLt hlen hcap hclear, queryOutcome, stopOutcome]

/-- Settles O39: the positions of the truncated range, counted from `start`. -/
theorem queryAnswersTheClosedForm : Obligations.QueryAnswersTheClosedForm := by
  intro start len s hr
  obtain ⟨h, e, hh⟩ := exec_query_answers start len hr
  refine ⟨h, e, hh.trans ⟨?_, ?_⟩⟩
  · rintro ⟨p, hlo, hhi, hp, hset⟩
    exact ⟨p - start.toNat, by omega, by rwa [Nat.add_sub_cancel' hlo]⟩
  · rintro ⟨k, hk, hset⟩
    exact ⟨start.toNat + k, by omega, by omega, by omega, hset⟩

/-- Settles O40: position `start` itself is filled and examined, whether or not the range wraps. -/
theorem queryFindsWhatFillMarked : Obligations.QueryFindsWhatFillMarked := by
  refine fun start len s hr => ⟨fun hne => ?_, exec_query_no_hit hr fun p hlo hhi _ => ?_⟩
  · have hpos : 0 < len.toNat := Nat.pos_of_ne_zero fun h => hne (BitVec.eq_of_toNat_eq h)
    obtain ⟨t, e, htr, hbits⟩ := exec_fill_bits start len hr
    have hfilled : inFillSet start.toNat len.toNat start.toNat := ⟨0, hpos, Nat.mod_eq_of_lt start.isLt⟩
    exact ⟨t, e, exec_query_hit htr le_rfl (by omega) start.isLt ((hbits _ start.isLt).mpr (.inr hfilled))⟩
  · exact absurd hhi hlo.not_gt

/-- Settles O41: both answers are the closed form, which names positions from `start` on only. -/
theorem queryIgnoresTheWrappedTail : Obligations.QueryIgnoresTheWrappedTail := by
  intro start len s t hsr htr hagree
  obtain ⟨h, e, hh⟩ := exec_query_answers start len hsr
  obtain ⟨h', e', hh'⟩ := exec_query_answers start len htr
  have hsame : h = h' := by
    rw [Bool.eq_iff_iff, hh, hh']
    refine exists_congr fun p => and_congr_right fun hlo => and_congr_right fun _ => and_congr_right fun hp => ?_
    rw [hagree p hlo hp]
  exact ⟨h, e, hsame ▸ e'⟩

/-- Settles O42: (a) the FILL sets no position that the QUERY examines, (b) its wrapped tail starts at position 0, (c) the
overrun is not examined. -/
theorem wrapAsymmetryConsequences : Obligations.WrapAsymmetryConsequences := by
  refine fun s hr => ⟨fun hclear => ?_, ?_, fun hclear => exec_query_no_hit hr fun p hlo _ hp => hclear p hlo hp⟩
  · obtain ⟨t, e, htr, hbits⟩ := exec_fill_bits 0#16 4#16 hr
    refine ⟨t, e, exec_query_no_hit htr fun p hlo _ hp => ?_⟩
    replace hlo : 0xFFFC ≤ p := hlo
    have hout : ¬inFillSet (0#16).toNat (4#16).toNat p := by
      rw [inFillSet_iff (BitVec.isLt _) (BitVec.isLt _) hp]
      simp only [BitVec.toNat_ofNat]
      omega
    rw [← Bool.not_eq_true, hbits p hp, or_iff_left hout, hclear p hlo hp]
    exact Bool.false_ne_true
  · obtain ⟨t, e, htr, hbits⟩ := exec_fill_bits 0xFFFC#16 8#16 hr
    have hwrapped : inFillSet (0xFFFC#16).toNat (8#16).toNat 0 := ⟨4, by decide, by decide⟩
    exact ⟨t, e, exec_query_hit htr le_rfl (by decide) (by decide) ((hbits 0 (by decide)).mpr (.inr hwrapped))⟩

end Sys2Proof.Machine
end

section
/-!
PROOFS. The family of 60_exceptions.md. A command completes wherever its launch premise holds (`exec_completes`), so the one
fault a step answers is that of a command word at a machine that has faulted already (`step_fault`), and the one event
that changes `FAULTED` is `RESET` (`step_faulted`).
-/
namespace Sys2Proof.Machine

/-- A command completes, on a bitmap that was reset if it touches one (60_exceptions.md R141). -/
theorem exec_completes {i : Instr} {s : State} (hr : touchesMap i = true → s.mapReady = true) :
    ∃ t, exec i s = .next t := by
  by_cases hi : ∀ start len, i ≠ .fill start len
  · obtain ⟨r, hexec⟩ := exec_not_fill_responds hr hi
    exact ⟨_, hexec⟩
  · push Not at hi
    obtain ⟨start, len, rfl⟩ := hi
    obtain ⟨u, hexec, -⟩ := exec_fill_marks start len (hr rfl)
    exact ⟨_, hexec⟩

theorem exec_ne_fault (i : Instr) (s : State) (r : Fault) : exec i s ≠ .fault r := by
  obtain ⟨t, hexec⟩ | hexec := exec_completes_or_mapNotReset i s
  · rw [hexec]
    nofun
  · rw [hexec]
    nofun

/-- A command word answers a fault only at a machine that has faulted, and it is the recorded one (60_exceptions.md R142;
that a reserved word raises none is R147). -/
theorem runWord_fault {cw : CommandWord} {s : State} {r : Fault} (h : runWord cw s = .fault r) :
    ∃ idx, s.faulted = some idx ∧ r = .boundsViolation idx := by
  cases hf : s.faulted with
  | some idx =>
    rw [runWord, hf] at h
    cases h
    exact ⟨idx, rfl, rfl⟩
  | none =>
    cases hd : decode cw with
    | ok i =>
      rw [runWord_decoded hf hd] at h
      exact absurd h (exec_ne_fault i s r)
    | error why =>
      rw [runWord_reserved hf hd] at h
      cases h

/-- A step answers a fault only when a command word is next and the machine has faulted (60_exceptions.md R142, R143). -/
theorem step_fault {s : State} {r : Fault} (h : step s = .fault r) :
    ∃ cw rest idx, s.inbox = .command cw :: rest ∧ s.faulted = some idx ∧ r = .boundsViolation idx := by
  rcases hin : s.inbox with - | ⟨ev, rest⟩
  · rw [step_nil hin] at h
    cases h
  · rw [step_cons hin] at h
    cases ev with
    | reset => cases h
    | bind seg => cases h
    | command cw =>
      obtain ⟨idx, hf, hr⟩ := runWord_fault h
      exact ⟨cw, rest, idx, rfl, hf, hr⟩

/-- A step keeps `FAULTED` and the recorded index, unless it is the environment's `RESET`, which clears them
(60_exceptions.md R144, 70_reset_and_hazards.md R160). -/
theorem step_faulted {s t : State} (h : step s = .next t) :
    t.faulted = s.faulted ∨ (t.faulted = none ∧ ∃ rest, s.inbox = .reset :: rest) := by
  obtain ⟨-, rfl⟩ | ⟨rest, hin, rfl⟩ | ⟨seg, rest, -, rfl⟩ | ⟨cw, i, rest, -, -, -, hexec⟩ := step_next h
  · exact .inl rfl
  · exact .inr ⟨rfl, rest, hin⟩
  · exact .inl rfl
  · obtain ⟨-, -, hfaulted, -⟩ := exec_sameBut hexec
    exact .inl hfaulted

/-! ### The statements -/

/-- Settles O46: the command completes, and what completes adds one response and leaves the rest alone. -/
theorem everyCommandCompletes : Obligations.EveryCommandCompletes := by
  intro i s hr
  obtain ⟨t, hexec⟩ := exec_completes hr
  obtain ⟨r, hresponses, -⟩ := exec_answers_kind hexec
  exact ⟨t, hexec, ⟨r, hresponses⟩, exec_sameBut hexec⟩

/-- Settles O51: a step faults only where the machine has faulted, and none sets `FAULTED`. -/
theorem boundsViolationIsUnreachable : Obligations.BoundsViolationIsUnreachable := by
  refine fun s hf => ⟨fun r h => ?_, fun t h => ?_⟩
  · obtain ⟨cw, rest, idx, -, hfaulted, -⟩ := step_fault h
    rw [hf] at hfaulted
    cases hfaulted
  · obtain hkept | ⟨hcleared, -⟩ := step_faulted h
    · exact hkept.trans hf
    · exact hcleared

/-- Settles O52: of what a step can do, `RESET` alone changes `FAULTED`. -/
theorem onlyResetEndsTheFault : Obligations.OnlyResetEndsTheFault :=
  fun _ _ _ hf h => (step_faulted h).imp_left fun hkept => hkept.trans hf

/-- Settles O14: the word is taken from the stream and not even decoded. -/
theorem faultedMachinePerformsNoCommand : Obligations.FaultedMachinePerformsNoCommand := by
  intro s cw rest idx hin hf
  have hfault := step_command_of_faulted hf cw rest
  rwa [← hin] at hfault

end Sys2Proof.Machine
end

section
/-!
PROOFS. The family of 70_reset_and_hazards.md. The step at `RESET` is `State.resetEvent` of the state without that event; its
effect on the memory is said byte by byte (`State.resetEvent_byteOf` in the bitmaps, `State.resetEvent_read_outside` by
address). A command that touches a bitmap not reset cannot complete, so it is refused (`exec_of_not_mapReady`).
-/
namespace Sys2Proof.Machine

/-- Every byte of the bound bitmap is 0x00 after `RESET` (70_reset_and_hazards.md R160). -/
theorem State.resetEvent_mapByte (s : State) {idx : Nat} (hi : idx < 8192) : s.resetEvent.mapByte idx = 0#8 := by
  rw [State.mapByte, State.resetEvent_byteOf _ _ hi, State.resetEvent_bound, if_pos rfl]

/-- `RESET` keeps every byte whose address lies outside the bound bitmap (70_reset_and_hazards.md R160). -/
theorem State.resetEvent_read_outside {s : State} {a : Nat}
    (ha : ¬(mapAddr s.bound 0 ≤ a ∧ a < mapAddr s.bound 8192)) :
    Memory.read s.resetEvent.mem a = Memory.read s.mem a := by
  rw [State.resetEvent_mem, Memory.read_clear, Config.segmentBytes, if_neg ha]

/-- A command that touches a bitmap which `RESET` has not zeroed is refused (70_reset_and_hazards.md R161). -/
theorem exec_of_not_mapReady {i : Instr} {s : State} (hi : touchesMap i = true) (hr : s.mapReady = false) :
    exec i s = .refused (.mapNotReset s.bound) := by
  obtain ⟨t, hexec⟩ | hexec := exec_completes_or_mapNotReset i s
  · obtain ⟨-, -, -, -, -, hready⟩ := exec_next hexec
    exact absurd (hready hi) (Bool.eq_false_iff.mp hr)
  · exact hexec

/-! ### The statements -/

/-- Settles O12: the step performs `RESET` on the state without that event, which clears the addresses of the bound bitmap
and no other. -/
theorem resetEventZeroesTheBoundMap : Obligations.ResetEventZeroesTheBoundMap := by
  intro s rest hin
  have hzeroed : ∀ idx < 8192, (s.withInbox rest).resetEvent.mapByte idx = 0#8 :=
    fun _ => State.resetEvent_mapByte _
  have hready : ∀ seg, seg ∈ (s.withInbox rest).resetEvent.zeroed ↔ seg = s.bound ∨ seg ∈ s.zeroed :=
    fun seg => mem_addSegment s.bound seg
  exact ⟨(s.withInbox rest).resetEvent, step_cons hin, hzeroed, rfl, rfl, hready,
    fun _ => State.resetEvent_read_outside (s := s.withInbox rest), rfl, rfl⟩

/-- Settles O11: a step at an empty stream waits. -/
theorem nothingPresentedChangesNothing : Obligations.NothingPresentedChangesNothing :=
  fun _ => step_nil

/-- Settles O45: both commands touch the bound bitmap, whatever their operands. -/
theorem mapCommandsNeedReset : Obligations.MapCommandsNeedReset :=
  fun _ _ _ hr => ⟨exec_of_not_mapReady rfl hr, exec_of_not_mapReady rfl hr⟩

end Sys2Proof.Machine
end
